-- ==== Sys2Proof/Word.lean ====
section
/-! DEFINITION. The word and byte types (rule R8), and the types of the fields of an instruction word:
register indices (R20), condition names (R114), shift types (R78), the sixteen opcodes (R76), the three second-operand
forms (R72 to R74) and the classes of the decode tree (R97). -/

namespace Sys2Proof

/-- A 32-bit word: every register, the pc, every operand and every instruction (R8, R12). -/
abbrev Word := BitVec 32

/-- One byte of the code store (R8). -/
abbrev Byte := BitVec 8

/-- A register index, 0 to 15; index 15 is the program counter (R20, R21). -/
abbrev RegIdx := Fin 16

/-- The sixteen condition codes in the order of rule R114. -/
inductive Cond where
  | eq | ne | cs | cc | mi | pl | vs | vc | hi | ls | ge | lt | gt | le | al | nv
  deriving DecidableEq, Repr

/-- The four shift types, field values 0 to 3 (R78). -/
inductive ShiftType where
  | lsl | lsr | asr | ror
  deriving DecidableEq, Repr

/-- The sixteen data-processing opcodes, field values 0 to 15 (R76). -/
inductive Opcode where
  | and | eor | sub | rsb | add | adc | sbc | rsc | tst | teq | cmp | cmn | orr | mov | bic | mvn
  deriving DecidableEq, Repr

/-- The second operand of a data-processing instruction, one constructor per format (R72, R73, R74). -/
inductive Operand2 where
  /-- `DP_IMM`: the 8-bit immediate rotated right by twice `rot` (R77). -/
  | imm (rot : BitVec 4) (imm8 : Byte)
  /-- `DP_REG_IMMSHIFT`: `rm` shifted by the 5-bit field (R78). -/
  | immShift (shamt5 : BitVec 5) (ty : ShiftType) (rm : RegIdx)
  /-- `DP_REG_REGSHIFT`: `rm` shifted by the low byte of `rs` (R78). -/
  | regShift (rs : RegIdx) (ty : ShiftType) (rm : RegIdx)
  deriving DecidableEq, Repr

/-- The twenty hooked classes of rule R97: recognised by the decoder, not executed by the block (R6, R213 to R232). -/
inductive HookClass where
  | psrReg | psrImm | mul | mull | swp | htReg | htImm
  | sdtImmPost | sdtImmPre | sdtRegPost | sdtRegPre | bdtPost | bdtPre
  | b | bl | cdtPost | cdtPre | cdo | crt | swi
  deriving DecidableEq, Repr

/-- The 25 classes of rule R97: three data-processing classes, `BX`, twenty hooks and `UNDEFINED`. -/
inductive InstrClass where
  | dpImm | dpRegImmShift | dpRegRegShift | bx | hook (k : HookClass) | undefined
  deriving DecidableEq, Repr

end Sys2Proof
end

