-- ==== Sys2Proof/Syntax.lean ====
section
/-! DEFINITION. The instructions: one constructor per row of spec/opcode_table.json, in the table's order (R102). A
data-processing row carries every field of its format, the ignored ones too (R100); TST, TEQ, CMP and CMN have no S field, their
rows fixing S = 1. A hook or `UNDEFINED` row has no operand format: it carries bits 27 to 0 of its word, which is what the
outcomes `Hook(K, w)` and `Undefined(w)` hand over (R211, R212, R240). -/

namespace Sys2Proof

inductive Instr where
  | bx (cond : Cond) (rm : RegIdx)
  | psrRegBit4Clear (cond : Cond) (body : BitVec 28)
  | psrRegBit4Set (cond : Cond) (body : BitVec 28)
  | andImmShift (cond : Cond) (sf : Bool) (rn rd : RegIdx) (shamt5 : BitVec 5) (ty : ShiftType) (rm : RegIdx)
  | eorImmShift (cond : Cond) (sf : Bool) (rn rd : RegIdx) (shamt5 : BitVec 5) (ty : ShiftType) (rm : RegIdx)
  | subImmShift (cond : Cond) (sf : Bool) (rn rd : RegIdx) (shamt5 : BitVec 5) (ty : ShiftType) (rm : RegIdx)
  | rsbImmShift (cond : Cond) (sf : Bool) (rn rd : RegIdx) (shamt5 : BitVec 5) (ty : ShiftType) (rm : RegIdx)
  | addImmShift (cond : Cond) (sf : Bool) (rn rd : RegIdx) (shamt5 : BitVec 5) (ty : ShiftType) (rm : RegIdx)
  | adcImmShift (cond : Cond) (sf : Bool) (rn rd : RegIdx) (shamt5 : BitVec 5) (ty : ShiftType) (rm : RegIdx)
  | sbcImmShift (cond : Cond) (sf : Bool) (rn rd : RegIdx) (shamt5 : BitVec 5) (ty : ShiftType) (rm : RegIdx)
  | rscImmShift (cond : Cond) (sf : Bool) (rn rd : RegIdx) (shamt5 : BitVec 5) (ty : ShiftType) (rm : RegIdx)
  | tstImmShift (cond : Cond) (rn rd : RegIdx) (shamt5 : BitVec 5) (ty : ShiftType) (rm : RegIdx)
  | teqImmShift (cond : Cond) (rn rd : RegIdx) (shamt5 : BitVec 5) (ty : ShiftType) (rm : RegIdx)
  | cmpImmShift (cond : Cond) (rn rd : RegIdx) (shamt5 : BitVec 5) (ty : ShiftType) (rm : RegIdx)
  | cmnImmShift (cond : Cond) (rn rd : RegIdx) (shamt5 : BitVec 5) (ty : ShiftType) (rm : RegIdx)
  | orrImmShift (cond : Cond) (sf : Bool) (rn rd : RegIdx) (shamt5 : BitVec 5) (ty : ShiftType) (rm : RegIdx)
  | movImmShift (cond : Cond) (sf : Bool) (rn rd : RegIdx) (shamt5 : BitVec 5) (ty : ShiftType) (rm : RegIdx)
  | bicImmShift (cond : Cond) (sf : Bool) (rn rd : RegIdx) (shamt5 : BitVec 5) (ty : ShiftType) (rm : RegIdx)
  | mvnImmShift (cond : Cond) (sf : Bool) (rn rd : RegIdx) (shamt5 : BitVec 5) (ty : ShiftType) (rm : RegIdx)
  | andRegShift (cond : Cond) (sf : Bool) (rn rd rs : RegIdx) (ty : ShiftType) (rm : RegIdx)
  | eorRegShift (cond : Cond) (sf : Bool) (rn rd rs : RegIdx) (ty : ShiftType) (rm : RegIdx)
  | subRegShift (cond : Cond) (sf : Bool) (rn rd rs : RegIdx) (ty : ShiftType) (rm : RegIdx)
  | rsbRegShift (cond : Cond) (sf : Bool) (rn rd rs : RegIdx) (ty : ShiftType) (rm : RegIdx)
  | addRegShift (cond : Cond) (sf : Bool) (rn rd rs : RegIdx) (ty : ShiftType) (rm : RegIdx)
  | adcRegShift (cond : Cond) (sf : Bool) (rn rd rs : RegIdx) (ty : ShiftType) (rm : RegIdx)
  | sbcRegShift (cond : Cond) (sf : Bool) (rn rd rs : RegIdx) (ty : ShiftType) (rm : RegIdx)
  | rscRegShift (cond : Cond) (sf : Bool) (rn rd rs : RegIdx) (ty : ShiftType) (rm : RegIdx)
  | tstRegShift (cond : Cond) (rn rd rs : RegIdx) (ty : ShiftType) (rm : RegIdx)
  | teqRegShift (cond : Cond) (rn rd rs : RegIdx) (ty : ShiftType) (rm : RegIdx)
  | cmpRegShift (cond : Cond) (rn rd rs : RegIdx) (ty : ShiftType) (rm : RegIdx)
  | cmnRegShift (cond : Cond) (rn rd rs : RegIdx) (ty : ShiftType) (rm : RegIdx)
  | orrRegShift (cond : Cond) (sf : Bool) (rn rd rs : RegIdx) (ty : ShiftType) (rm : RegIdx)
  | movRegShift (cond : Cond) (sf : Bool) (rn rd rs : RegIdx) (ty : ShiftType) (rm : RegIdx)
  | bicRegShift (cond : Cond) (sf : Bool) (rn rd rs : RegIdx) (ty : ShiftType) (rm : RegIdx)
  | mvnRegShift (cond : Cond) (sf : Bool) (rn rd rs : RegIdx) (ty : ShiftType) (rm : RegIdx)
  | swp (cond : Cond) (body : BitVec 28)
  | mul (cond : Cond) (body : BitVec 28)
  | mull (cond : Cond) (body : BitVec 28)
  | htReg (cond : Cond) (body : BitVec 28)
  | htImm (cond : Cond) (body : BitVec 28)
  | undefExtension (cond : Cond) (body : BitVec 28)
  | psrImm (cond : Cond) (body : BitVec 28)
  | andImm (cond : Cond) (sf : Bool) (rn rd : RegIdx) (rot : BitVec 4) (imm8 : Byte)
  | eorImm (cond : Cond) (sf : Bool) (rn rd : RegIdx) (rot : BitVec 4) (imm8 : Byte)
  | subImm (cond : Cond) (sf : Bool) (rn rd : RegIdx) (rot : BitVec 4) (imm8 : Byte)
  | rsbImm (cond : Cond) (sf : Bool) (rn rd : RegIdx) (rot : BitVec 4) (imm8 : Byte)
  | addImm (cond : Cond) (sf : Bool) (rn rd : RegIdx) (rot : BitVec 4) (imm8 : Byte)
  | adcImm (cond : Cond) (sf : Bool) (rn rd : RegIdx) (rot : BitVec 4) (imm8 : Byte)
  | sbcImm (cond : Cond) (sf : Bool) (rn rd : RegIdx) (rot : BitVec 4) (imm8 : Byte)
  | rscImm (cond : Cond) (sf : Bool) (rn rd : RegIdx) (rot : BitVec 4) (imm8 : Byte)
  | tstImm (cond : Cond) (rn rd : RegIdx) (rot : BitVec 4) (imm8 : Byte)
  | teqImm (cond : Cond) (rn rd : RegIdx) (rot : BitVec 4) (imm8 : Byte)
  | cmpImm (cond : Cond) (rn rd : RegIdx) (rot : BitVec 4) (imm8 : Byte)
  | cmnImm (cond : Cond) (rn rd : RegIdx) (rot : BitVec 4) (imm8 : Byte)
  | orrImm (cond : Cond) (sf : Bool) (rn rd : RegIdx) (rot : BitVec 4) (imm8 : Byte)
  | movImm (cond : Cond) (sf : Bool) (rn rd : RegIdx) (rot : BitVec 4) (imm8 : Byte)
  | bicImm (cond : Cond) (sf : Bool) (rn rd : RegIdx) (rot : BitVec 4) (imm8 : Byte)
  | mvnImm (cond : Cond) (sf : Bool) (rn rd : RegIdx) (rot : BitVec 4) (imm8 : Byte)
  | sdtImmPost (cond : Cond) (body : BitVec 28)
  | sdtImmPre (cond : Cond) (body : BitVec 28)
  | sdtRegPost (cond : Cond) (body : BitVec 28)
  | undefCat6 (cond : Cond) (body : BitVec 28)
  | sdtRegPre (cond : Cond) (body : BitVec 28)
  | undefCat7 (cond : Cond) (body : BitVec 28)
  | bdtPost (cond : Cond) (body : BitVec 28)
  | bdtPre (cond : Cond) (body : BitVec 28)
  | b (cond : Cond) (body : BitVec 28)
  | bl (cond : Cond) (body : BitVec 28)
  | cdtPost (cond : Cond) (body : BitVec 28)
  | cdtPre (cond : Cond) (body : BitVec 28)
  | cdo (cond : Cond) (body : BitVec 28)
  | crt (cond : Cond) (body : BitVec 28)
  | swi (cond : Cond) (body : BitVec 28)
  deriving DecidableEq, Repr

/-- The condition field, common to every word (R71). -/
def Instr.cond : Instr → Cond
  | .bx cond .. => cond
  | .psrRegBit4Clear cond .. => cond
  | .psrRegBit4Set cond .. => cond
  | .andImmShift cond .. => cond
  | .eorImmShift cond .. => cond
  | .subImmShift cond .. => cond
  | .rsbImmShift cond .. => cond
  | .addImmShift cond .. => cond
  | .adcImmShift cond .. => cond
  | .sbcImmShift cond .. => cond
  | .rscImmShift cond .. => cond
  | .tstImmShift cond .. => cond
  | .teqImmShift cond .. => cond
  | .cmpImmShift cond .. => cond
  | .cmnImmShift cond .. => cond
  | .orrImmShift cond .. => cond
  | .movImmShift cond .. => cond
  | .bicImmShift cond .. => cond
  | .mvnImmShift cond .. => cond
  | .andRegShift cond .. => cond
  | .eorRegShift cond .. => cond
  | .subRegShift cond .. => cond
  | .rsbRegShift cond .. => cond
  | .addRegShift cond .. => cond
  | .adcRegShift cond .. => cond
  | .sbcRegShift cond .. => cond
  | .rscRegShift cond .. => cond
  | .tstRegShift cond .. => cond
  | .teqRegShift cond .. => cond
  | .cmpRegShift cond .. => cond
  | .cmnRegShift cond .. => cond
  | .orrRegShift cond .. => cond
  | .movRegShift cond .. => cond
  | .bicRegShift cond .. => cond
  | .mvnRegShift cond .. => cond
  | .swp cond .. => cond
  | .mul cond .. => cond
  | .mull cond .. => cond
  | .htReg cond .. => cond
  | .htImm cond .. => cond
  | .undefExtension cond .. => cond
  | .psrImm cond .. => cond
  | .andImm cond .. => cond
  | .eorImm cond .. => cond
  | .subImm cond .. => cond
  | .rsbImm cond .. => cond
  | .addImm cond .. => cond
  | .adcImm cond .. => cond
  | .sbcImm cond .. => cond
  | .rscImm cond .. => cond
  | .tstImm cond .. => cond
  | .teqImm cond .. => cond
  | .cmpImm cond .. => cond
  | .cmnImm cond .. => cond
  | .orrImm cond .. => cond
  | .movImm cond .. => cond
  | .bicImm cond .. => cond
  | .mvnImm cond .. => cond
  | .sdtImmPost cond .. => cond
  | .sdtImmPre cond .. => cond
  | .sdtRegPost cond .. => cond
  | .undefCat6 cond .. => cond
  | .sdtRegPre cond .. => cond
  | .undefCat7 cond .. => cond
  | .bdtPost cond .. => cond
  | .bdtPre cond .. => cond
  | .b cond .. => cond
  | .bl cond .. => cond
  | .cdtPost cond .. => cond
  | .cdtPre cond .. => cond
  | .cdo cond .. => cond
  | .crt cond .. => cond
  | .swi cond .. => cond

/-- The data-processing row of an opcode and a second-operand form (R102: one row per opcode and operand form). The four
test opcodes have no S field (R190). -/
def Instr.dp (op : Opcode) (cond : Cond) (sf : Bool) (rn rd : RegIdx) (o : Operand2) : Instr :=
  match op, o with
  | .and, .imm rot imm8 => .andImm cond sf rn rd rot imm8
  | .and, .immShift shamt5 ty rm => .andImmShift cond sf rn rd shamt5 ty rm
  | .and, .regShift rs ty rm => .andRegShift cond sf rn rd rs ty rm
  | .eor, .imm rot imm8 => .eorImm cond sf rn rd rot imm8
  | .eor, .immShift shamt5 ty rm => .eorImmShift cond sf rn rd shamt5 ty rm
  | .eor, .regShift rs ty rm => .eorRegShift cond sf rn rd rs ty rm
  | .sub, .imm rot imm8 => .subImm cond sf rn rd rot imm8
  | .sub, .immShift shamt5 ty rm => .subImmShift cond sf rn rd shamt5 ty rm
  | .sub, .regShift rs ty rm => .subRegShift cond sf rn rd rs ty rm
  | .rsb, .imm rot imm8 => .rsbImm cond sf rn rd rot imm8
  | .rsb, .immShift shamt5 ty rm => .rsbImmShift cond sf rn rd shamt5 ty rm
  | .rsb, .regShift rs ty rm => .rsbRegShift cond sf rn rd rs ty rm
  | .add, .imm rot imm8 => .addImm cond sf rn rd rot imm8
  | .add, .immShift shamt5 ty rm => .addImmShift cond sf rn rd shamt5 ty rm
  | .add, .regShift rs ty rm => .addRegShift cond sf rn rd rs ty rm
  | .adc, .imm rot imm8 => .adcImm cond sf rn rd rot imm8
  | .adc, .immShift shamt5 ty rm => .adcImmShift cond sf rn rd shamt5 ty rm
  | .adc, .regShift rs ty rm => .adcRegShift cond sf rn rd rs ty rm
  | .sbc, .imm rot imm8 => .sbcImm cond sf rn rd rot imm8
  | .sbc, .immShift shamt5 ty rm => .sbcImmShift cond sf rn rd shamt5 ty rm
  | .sbc, .regShift rs ty rm => .sbcRegShift cond sf rn rd rs ty rm
  | .rsc, .imm rot imm8 => .rscImm cond sf rn rd rot imm8
  | .rsc, .immShift shamt5 ty rm => .rscImmShift cond sf rn rd shamt5 ty rm
  | .rsc, .regShift rs ty rm => .rscRegShift cond sf rn rd rs ty rm
  | .tst, .imm rot imm8 => .tstImm cond rn rd rot imm8
  | .tst, .immShift shamt5 ty rm => .tstImmShift cond rn rd shamt5 ty rm
  | .tst, .regShift rs ty rm => .tstRegShift cond rn rd rs ty rm
  | .teq, .imm rot imm8 => .teqImm cond rn rd rot imm8
  | .teq, .immShift shamt5 ty rm => .teqImmShift cond rn rd shamt5 ty rm
  | .teq, .regShift rs ty rm => .teqRegShift cond rn rd rs ty rm
  | .cmp, .imm rot imm8 => .cmpImm cond rn rd rot imm8
  | .cmp, .immShift shamt5 ty rm => .cmpImmShift cond rn rd shamt5 ty rm
  | .cmp, .regShift rs ty rm => .cmpRegShift cond rn rd rs ty rm
  | .cmn, .imm rot imm8 => .cmnImm cond rn rd rot imm8
  | .cmn, .immShift shamt5 ty rm => .cmnImmShift cond rn rd shamt5 ty rm
  | .cmn, .regShift rs ty rm => .cmnRegShift cond rn rd rs ty rm
  | .orr, .imm rot imm8 => .orrImm cond sf rn rd rot imm8
  | .orr, .immShift shamt5 ty rm => .orrImmShift cond sf rn rd shamt5 ty rm
  | .orr, .regShift rs ty rm => .orrRegShift cond sf rn rd rs ty rm
  | .mov, .imm rot imm8 => .movImm cond sf rn rd rot imm8
  | .mov, .immShift shamt5 ty rm => .movImmShift cond sf rn rd shamt5 ty rm
  | .mov, .regShift rs ty rm => .movRegShift cond sf rn rd rs ty rm
  | .bic, .imm rot imm8 => .bicImm cond sf rn rd rot imm8
  | .bic, .immShift shamt5 ty rm => .bicImmShift cond sf rn rd shamt5 ty rm
  | .bic, .regShift rs ty rm => .bicRegShift cond sf rn rd rs ty rm
  | .mvn, .imm rot imm8 => .mvnImm cond sf rn rd rot imm8
  | .mvn, .immShift shamt5 ty rm => .mvnImmShift cond sf rn rd shamt5 ty rm
  | .mvn, .regShift rs ty rm => .mvnRegShift cond sf rn rd rs ty rm

end Sys2Proof
end

