-- ==== Sys2Proof/WellFormed.lean ====
section
/-! DEFINITION. The opcode table of the spec as data (R102) and well-formedness: an instruction that carries raw bits carries
bits that its own row of the table is the first to match. A data-processing instruction or `BX` has no illegal field value (R22,
R100). -/

namespace Sys2Proof

/-- One row of spec/opcode_table.json: a word whose bits 27 to 0 are `b` matches when `b &&& mask = pattern`; the condition
field is in no row's mask (R102). -/
structure OpcodeRow where
  order : Nat
  mnemonic : String
  cls : InstrClass
  pattern : BitVec 28
  mask : BitVec 28
  deriving DecidableEq, Repr

def OpcodeRow.hits (r : OpcodeRow) (b : BitVec 28) : Bool := b &&& r.mask == r.pattern

/-- Rows 1 to 3: BX and the register-operand PSR space. -/
def opcodeRowsPsrAndBx : List OpcodeRow :=
  [ ⟨1, "BX", .bx, 0x12FFF10, 0xFFFFFF0⟩
  , ⟨2, "PSR_REG", (.hook .psrReg), 0x1000000, 0xF900010⟩
  , ⟨3, "PSR_REG", (.hook .psrReg), 0x1000010, 0xF900090⟩ ]

/-- Rows 4 to 19: register shifted by an immediate amount. -/
def opcodeRowsImmShift : List OpcodeRow :=
  [ ⟨4, "AND", .dpRegImmShift, 0x0000000, 0xFE00010⟩
  , ⟨5, "EOR", .dpRegImmShift, 0x0200000, 0xFE00010⟩
  , ⟨6, "SUB", .dpRegImmShift, 0x0400000, 0xFE00010⟩
  , ⟨7, "RSB", .dpRegImmShift, 0x0600000, 0xFE00010⟩
  , ⟨8, "ADD", .dpRegImmShift, 0x0800000, 0xFE00010⟩
  , ⟨9, "ADC", .dpRegImmShift, 0x0A00000, 0xFE00010⟩
  , ⟨10, "SBC", .dpRegImmShift, 0x0C00000, 0xFE00010⟩
  , ⟨11, "RSC", .dpRegImmShift, 0x0E00000, 0xFE00010⟩
  , ⟨12, "TST", .dpRegImmShift, 0x1100000, 0xFF00010⟩
  , ⟨13, "TEQ", .dpRegImmShift, 0x1300000, 0xFF00010⟩
  , ⟨14, "CMP", .dpRegImmShift, 0x1500000, 0xFF00010⟩
  , ⟨15, "CMN", .dpRegImmShift, 0x1700000, 0xFF00010⟩
  , ⟨16, "ORR", .dpRegImmShift, 0x1800000, 0xFE00010⟩
  , ⟨17, "MOV", .dpRegImmShift, 0x1A00000, 0xFE00010⟩
  , ⟨18, "BIC", .dpRegImmShift, 0x1C00000, 0xFE00010⟩
  , ⟨19, "MVN", .dpRegImmShift, 0x1E00000, 0xFE00010⟩ ]

/-- Rows 20 to 35: register shifted by a register amount. -/
def opcodeRowsRegShift : List OpcodeRow :=
  [ ⟨20, "AND", .dpRegRegShift, 0x0000010, 0xFE00090⟩
  , ⟨21, "EOR", .dpRegRegShift, 0x0200010, 0xFE00090⟩
  , ⟨22, "SUB", .dpRegRegShift, 0x0400010, 0xFE00090⟩
  , ⟨23, "RSB", .dpRegRegShift, 0x0600010, 0xFE00090⟩
  , ⟨24, "ADD", .dpRegRegShift, 0x0800010, 0xFE00090⟩
  , ⟨25, "ADC", .dpRegRegShift, 0x0A00010, 0xFE00090⟩
  , ⟨26, "SBC", .dpRegRegShift, 0x0C00010, 0xFE00090⟩
  , ⟨27, "RSC", .dpRegRegShift, 0x0E00010, 0xFE00090⟩
  , ⟨28, "TST", .dpRegRegShift, 0x1100010, 0xFF00090⟩
  , ⟨29, "TEQ", .dpRegRegShift, 0x1300010, 0xFF00090⟩
  , ⟨30, "CMP", .dpRegRegShift, 0x1500010, 0xFF00090⟩
  , ⟨31, "CMN", .dpRegRegShift, 0x1700010, 0xFF00090⟩
  , ⟨32, "ORR", .dpRegRegShift, 0x1800010, 0xFE00090⟩
  , ⟨33, "MOV", .dpRegRegShift, 0x1A00010, 0xFE00090⟩
  , ⟨34, "BIC", .dpRegRegShift, 0x1C00010, 0xFE00090⟩
  , ⟨35, "MVN", .dpRegRegShift, 0x1E00010, 0xFE00090⟩ ]

/-- Rows 36 to 42: the extension space and the immediate PSR space. -/
def opcodeRowsExtension : List OpcodeRow :=
  [ ⟨36, "SWP", (.hook .swp), 0x1000090, 0xFE00F90⟩
  , ⟨37, "MUL", (.hook .mul), 0x0000090, 0xEC000F0⟩
  , ⟨38, "MULL", (.hook .mull), 0x0800090, 0xE8000F0⟩
  , ⟨39, "HT_REG", (.hook .htReg), 0x0000090, 0xE400F90⟩
  , ⟨40, "HT_IMM", (.hook .htImm), 0x0400090, 0xE400090⟩
  , ⟨41, "UNDEFINED", .undefined, 0x0000090, 0xE000090⟩
  , ⟨42, "PSR_IMM", (.hook .psrImm), 0x3000000, 0xF900000⟩ ]

/-- Rows 43 to 58: rotated immediate. -/
def opcodeRowsImm : List OpcodeRow :=
  [ ⟨43, "AND", .dpImm, 0x2000000, 0xFE00000⟩
  , ⟨44, "EOR", .dpImm, 0x2200000, 0xFE00000⟩
  , ⟨45, "SUB", .dpImm, 0x2400000, 0xFE00000⟩
  , ⟨46, "RSB", .dpImm, 0x2600000, 0xFE00000⟩
  , ⟨47, "ADD", .dpImm, 0x2800000, 0xFE00000⟩
  , ⟨48, "ADC", .dpImm, 0x2A00000, 0xFE00000⟩
  , ⟨49, "SBC", .dpImm, 0x2C00000, 0xFE00000⟩
  , ⟨50, "RSC", .dpImm, 0x2E00000, 0xFE00000⟩
  , ⟨51, "TST", .dpImm, 0x3100000, 0xFF00000⟩
  , ⟨52, "TEQ", .dpImm, 0x3300000, 0xFF00000⟩
  , ⟨53, "CMP", .dpImm, 0x3500000, 0xFF00000⟩
  , ⟨54, "CMN", .dpImm, 0x3700000, 0xFF00000⟩
  , ⟨55, "ORR", .dpImm, 0x3800000, 0xFE00000⟩
  , ⟨56, "MOV", .dpImm, 0x3A00000, 0xFE00000⟩
  , ⟨57, "BIC", .dpImm, 0x3C00000, 0xFE00000⟩
  , ⟨58, "MVN", .dpImm, 0x3E00000, 0xFE00000⟩ ]

/-- Rows 59 to 73: categories 0x4 to 0xF. -/
def opcodeRowsUpper : List OpcodeRow :=
  [ ⟨59, "SDT_IMM_POST", (.hook .sdtImmPost), 0x4000000, 0xF000000⟩
  , ⟨60, "SDT_IMM_PRE", (.hook .sdtImmPre), 0x5000000, 0xF000000⟩
  , ⟨61, "SDT_REG_POST", (.hook .sdtRegPost), 0x6000000, 0xF000010⟩
  , ⟨62, "UNDEFINED", .undefined, 0x6000010, 0xF000010⟩
  , ⟨63, "SDT_REG_PRE", (.hook .sdtRegPre), 0x7000000, 0xF000010⟩
  , ⟨64, "UNDEFINED", .undefined, 0x7000010, 0xF000010⟩
  , ⟨65, "BDT_POST", (.hook .bdtPost), 0x8000000, 0xF000000⟩
  , ⟨66, "BDT_PRE", (.hook .bdtPre), 0x9000000, 0xF000000⟩
  , ⟨67, "B", (.hook .b), 0xA000000, 0xF000000⟩
  , ⟨68, "BL", (.hook .bl), 0xB000000, 0xF000000⟩
  , ⟨69, "CDT_POST", (.hook .cdtPost), 0xC000000, 0xF000000⟩
  , ⟨70, "CDT_PRE", (.hook .cdtPre), 0xD000000, 0xF000000⟩
  , ⟨71, "CDO", (.hook .cdo), 0xE000000, 0xF000010⟩
  , ⟨72, "CRT", (.hook .crt), 0xE000010, 0xF000010⟩
  , ⟨73, "SWI", (.hook .swi), 0xF000000, 0xF000000⟩ ]

/-- The whole table in increasing `order` (R102). -/
def opcodeTable : List OpcodeRow :=
  opcodeRowsPsrAndBx ++ opcodeRowsImmShift ++ opcodeRowsRegShift ++ opcodeRowsExtension ++ opcodeRowsImm ++ opcodeRowsUpper

/-- "A decoder tries the rows in increasing `order` and takes the first that matches" (R102). -/
def firstRow (b : BitVec 28) : Option OpcodeRow := opcodeTable.find? (·.hits b)

/-- The `order` of the table row an instruction is. -/
def Instr.row : Instr → Nat
  | .bx .. => 1
  | .psrRegBit4Clear .. => 2
  | .psrRegBit4Set .. => 3
  | .andImmShift .. => 4
  | .eorImmShift .. => 5
  | .subImmShift .. => 6
  | .rsbImmShift .. => 7
  | .addImmShift .. => 8
  | .adcImmShift .. => 9
  | .sbcImmShift .. => 10
  | .rscImmShift .. => 11
  | .tstImmShift .. => 12
  | .teqImmShift .. => 13
  | .cmpImmShift .. => 14
  | .cmnImmShift .. => 15
  | .orrImmShift .. => 16
  | .movImmShift .. => 17
  | .bicImmShift .. => 18
  | .mvnImmShift .. => 19
  | .andRegShift .. => 20
  | .eorRegShift .. => 21
  | .subRegShift .. => 22
  | .rsbRegShift .. => 23
  | .addRegShift .. => 24
  | .adcRegShift .. => 25
  | .sbcRegShift .. => 26
  | .rscRegShift .. => 27
  | .tstRegShift .. => 28
  | .teqRegShift .. => 29
  | .cmpRegShift .. => 30
  | .cmnRegShift .. => 31
  | .orrRegShift .. => 32
  | .movRegShift .. => 33
  | .bicRegShift .. => 34
  | .mvnRegShift .. => 35
  | .swp .. => 36
  | .mul .. => 37
  | .mull .. => 38
  | .htReg .. => 39
  | .htImm .. => 40
  | .undefExtension .. => 41
  | .psrImm .. => 42
  | .andImm .. => 43
  | .eorImm .. => 44
  | .subImm .. => 45
  | .rsbImm .. => 46
  | .addImm .. => 47
  | .adcImm .. => 48
  | .sbcImm .. => 49
  | .rscImm .. => 50
  | .tstImm .. => 51
  | .teqImm .. => 52
  | .cmpImm .. => 53
  | .cmnImm .. => 54
  | .orrImm .. => 55
  | .movImm .. => 56
  | .bicImm .. => 57
  | .mvnImm .. => 58
  | .sdtImmPost .. => 59
  | .sdtImmPre .. => 60
  | .sdtRegPost .. => 61
  | .undefCat6 .. => 62
  | .sdtRegPre .. => 63
  | .undefCat7 .. => 64
  | .bdtPost .. => 65
  | .bdtPre .. => 66
  | .b .. => 67
  | .bl .. => 68
  | .cdtPost .. => 69
  | .cdtPre .. => 70
  | .cdo .. => 71
  | .crt .. => 72
  | .swi .. => 73

/-- The bits 27 to 0 that an instruction without an operand format carries. -/
def Instr.body? : Instr → Option (BitVec 28)
  | .bx .. => none
  | .psrRegBit4Clear _ body => some body
  | .psrRegBit4Set _ body => some body
  | .andImmShift .. => none
  | .eorImmShift .. => none
  | .subImmShift .. => none
  | .rsbImmShift .. => none
  | .addImmShift .. => none
  | .adcImmShift .. => none
  | .sbcImmShift .. => none
  | .rscImmShift .. => none
  | .tstImmShift .. => none
  | .teqImmShift .. => none
  | .cmpImmShift .. => none
  | .cmnImmShift .. => none
  | .orrImmShift .. => none
  | .movImmShift .. => none
  | .bicImmShift .. => none
  | .mvnImmShift .. => none
  | .andRegShift .. => none
  | .eorRegShift .. => none
  | .subRegShift .. => none
  | .rsbRegShift .. => none
  | .addRegShift .. => none
  | .adcRegShift .. => none
  | .sbcRegShift .. => none
  | .rscRegShift .. => none
  | .tstRegShift .. => none
  | .teqRegShift .. => none
  | .cmpRegShift .. => none
  | .cmnRegShift .. => none
  | .orrRegShift .. => none
  | .movRegShift .. => none
  | .bicRegShift .. => none
  | .mvnRegShift .. => none
  | .swp _ body => some body
  | .mul _ body => some body
  | .mull _ body => some body
  | .htReg _ body => some body
  | .htImm _ body => some body
  | .undefExtension _ body => some body
  | .psrImm _ body => some body
  | .andImm .. => none
  | .eorImm .. => none
  | .subImm .. => none
  | .rsbImm .. => none
  | .addImm .. => none
  | .adcImm .. => none
  | .sbcImm .. => none
  | .rscImm .. => none
  | .tstImm .. => none
  | .teqImm .. => none
  | .cmpImm .. => none
  | .cmnImm .. => none
  | .orrImm .. => none
  | .movImm .. => none
  | .bicImm .. => none
  | .mvnImm .. => none
  | .sdtImmPost _ body => some body
  | .sdtImmPre _ body => some body
  | .sdtRegPost _ body => some body
  | .undefCat6 _ body => some body
  | .sdtRegPre _ body => some body
  | .undefCat7 _ body => some body
  | .bdtPost _ body => some body
  | .bdtPre _ body => some body
  | .b _ body => some body
  | .bl _ body => some body
  | .cdtPost _ body => some body
  | .cdtPre _ body => some body
  | .cdo _ body => some body
  | .crt _ body => some body
  | .swi _ body => some body

/-- Well-formed: carried bits, if any, belong to the instruction's own row of the table. -/
def Instr.wellFormed (i : Instr) : Bool :=
  match i.body? with
  | none => true
  | some body => (firstRow body).map (·.order) == some i.row

abbrev Instr.WellFormed (i : Instr) : Prop := i.wellFormed = true

end Sys2Proof
end

