-- ==== Sys2Proof/Decode.lean ====
section
/-! DEFINITION. The decoder: field positions (R71 to R75), the decode tree (R80 to R97), the decoder over words and over bytes,
and the encoder written from the same format tables. -/

namespace Sys2Proof

/-! ### Fields of a word -/

def condBits (w : Word) : BitVec 4 := w.extractLsb' 28 4
/-- "category" (R71). -/
def catBits (w : Word) : BitVec 4 := w.extractLsb' 24 4
def opcodeBits (w : Word) : BitVec 4 := w.extractLsb' 21 4
def sBit (w : Word) : Bool := w.getLsbD 20
def rnField (w : Word) : RegIdx := (w.extractLsb' 16 4).toFin
def rdField (w : Word) : RegIdx := (w.extractLsb' 12 4).toFin
def rsField (w : Word) : RegIdx := (w.extractLsb' 8 4).toFin
def rmField (w : Word) : RegIdx := (w.extractLsb' 0 4).toFin
def rotField (w : Word) : BitVec 4 := w.extractLsb' 8 4
def imm8Field (w : Word) : Byte := w.extractLsb' 0 8
def shamtField (w : Word) : BitVec 5 := w.extractLsb' 7 5
def typeBits (w : Word) : BitVec 2 := w.extractLsb' 5 2
/-- Everything below the condition field. -/
def bodyBits (w : Word) : BitVec 28 := w.extractLsb' 0 28

/-- The condition a field value names (R114). -/
def Cond.ofBits (b : BitVec 4) : Cond :=
  match b.toNat with
  | 0 => .eq
  | 1 => .ne
  | 2 => .cs
  | 3 => .cc
  | 4 => .mi
  | 5 => .pl
  | 6 => .vs
  | 7 => .vc
  | 8 => .hi
  | 9 => .ls
  | 10 => .ge
  | 11 => .lt
  | 12 => .gt
  | 13 => .le
  | 14 => .al
  | _ => .nv

def Cond.toBits : Cond → BitVec 4
  | .eq => 0
  | .ne => 1
  | .cs => 2
  | .cc => 3
  | .mi => 4
  | .pl => 5
  | .vs => 6
  | .vc => 7
  | .hi => 8
  | .ls => 9
  | .ge => 10
  | .lt => 11
  | .gt => 12
  | .le => 13
  | .al => 14
  | .nv => 15

/-- The shift type a field value names (R78). -/
def ShiftType.ofBits (b : BitVec 2) : ShiftType :=
  match b.toNat with
  | 0 => .lsl
  | 1 => .lsr
  | 2 => .asr
  | _ => .ror

def ShiftType.toBits : ShiftType → BitVec 2
  | .lsl => 0
  | .lsr => 1
  | .asr => 2
  | .ror => 3

/-- The opcode a field value names (R76). -/
def Opcode.ofBits (b : BitVec 4) : Opcode :=
  match b.toNat with
  | 0 => .and
  | 1 => .eor
  | 2 => .sub
  | 3 => .rsb
  | 4 => .add
  | 5 => .adc
  | 6 => .sbc
  | 7 => .rsc
  | 8 => .tst
  | 9 => .teq
  | 10 => .cmp
  | 11 => .cmn
  | 12 => .orr
  | 13 => .mov
  | 14 => .bic
  | _ => .mvn

def Opcode.toBits : Opcode → BitVec 4
  | .and => 0
  | .eor => 1
  | .sub => 2
  | .rsb => 3
  | .add => 4
  | .adc => 5
  | .sbc => 6
  | .rsc => 7
  | .tst => 8
  | .teq => 9
  | .cmp => 10
  | .cmn => 11
  | .orr => 12
  | .mov => 13
  | .bic => 14
  | .mvn => 15

/-! ### The decode tree -/

/-- Opcode 8 to 11 with S = 0: a PSR transfer, not a data-processing word (R89). -/
def isPsrTransfer (w : Word) : Bool :=
  (opcodeBits w == 8 || opcodeBits w == 9 || opcodeBits w == 10 || opcodeBits w == 11) && !sBit w

/-- The BX pattern `(w & 0x0FFFFFF0) = 0x012FFF10` (R88). -/
def isBxWord (w : Word) : Bool := w &&& 0x0FFFFFF0 == 0x012FFF10

/-- The extension space, bits 7 and 4 set, of categories 0x0 and 0x1: the guards of R86, R82, R83, R84, R85, R87 in that
order (D7, D8). -/
def classifyExtension (w : Word) : InstrClass :=
  if catBits w = 1 ∧ w.extractLsb' 21 3 = 0 ∧ w.extractLsb' 8 4 = 0 then .hook .swp
  else if typeBits w = 0 ∧ w.extractLsb' 22 2 = 0 then .hook .mul
  else if typeBits w = 0 ∧ w.getLsbD 23 = true then .hook .mull
  else if w.extractLsb' 8 4 = 0 ∧ w.getLsbD 22 = false then .hook .htReg
  else if w.getLsbD 22 = true then .hook .htImm
  else .undefined

/-- Categories 0x0 and 0x1 after the BX guard (R81, R89). -/
def classifyRegisterSpace (w : Word) : InstrClass :=
  if w.getLsbD 4 = false ∨ w.getLsbD 7 = false then
    if isPsrTransfer w then .hook .psrReg
    else if w.getLsbD 4 = false then .dpRegImmShift
    else .dpRegRegShift
  else classifyExtension w

/-- The class of a word (R80 to R97): total, whatever the condition field. -/
def classify (w : Word) : InstrClass :=
  match (catBits w).toNat with
  | 0 => classifyRegisterSpace w
  | 1 => if isBxWord w then .bx else classifyRegisterSpace w
  | 2 | 3 => if isPsrTransfer w then .hook .psrImm else .dpImm
  | 4 => .hook .sdtImmPost
  | 5 => .hook .sdtImmPre
  | 6 => if w.getLsbD 4 = false then .hook .sdtRegPost else .undefined
  | 7 => if w.getLsbD 4 = false then .hook .sdtRegPre else .undefined
  | 8 => .hook .bdtPost
  | 9 => .hook .bdtPre
  | 10 => .hook .b
  | 11 => .hook .bl
  | 12 => .hook .cdtPost
  | 13 => .hook .cdtPre
  | 14 => if w.getLsbD 4 = false then .hook .cdo else .hook .crt
  | _ => .hook .swi

/-! ### The decoder -/

/-- The instruction of a hooked class: the condition and the bits below it (R211, R212). -/
def hookInstr (k : HookClass) (c : Cond) (body : BitVec 28) : Instr :=
  match k with
  | .psrReg => if body.getLsbD 4 then .psrRegBit4Set c body else .psrRegBit4Clear c body
  | .psrImm => .psrImm c body
  | .mul => .mul c body
  | .mull => .mull c body
  | .swp => .swp c body
  | .htReg => .htReg c body
  | .htImm => .htImm c body
  | .sdtImmPost => .sdtImmPost c body
  | .sdtImmPre => .sdtImmPre c body
  | .sdtRegPost => .sdtRegPost c body
  | .sdtRegPre => .sdtRegPre c body
  | .bdtPost => .bdtPost c body
  | .bdtPre => .bdtPre c body
  | .b => .b c body
  | .bl => .bl c body
  | .cdtPost => .cdtPost c body
  | .cdtPre => .cdtPre c body
  | .cdo => .cdo c body
  | .crt => .crt c body
  | .swi => .swi c body

/-- The instruction of class `UNDEFINED`: the row is that of the category (R98). -/
def undefinedInstr (c : Cond) (body : BitVec 28) : Instr :=
  match (body.extractLsb' 24 4).toNat with
  | 6 => .undefCat6 c body
  | 7 => .undefCat7 c body
  | _ => .undefExtension c body

/-- Decode a word: total, every word has a class (R97). -/
def decodeWord (w : Word) : Instr :=
  let c := Cond.ofBits (condBits w)
  let dp (o : Operand2) : Instr := .dp (.ofBits (opcodeBits w)) c (sBit w) (rnField w) (rdField w) o
  match classify w with
  | .dpImm => dp (.imm (rotField w) (imm8Field w))
  | .dpRegImmShift => dp (.immShift (shamtField w) (.ofBits (typeBits w)) (rmField w))
  | .dpRegRegShift => dp (.regShift (rsField w) (.ofBits (typeBits w)) (rmField w))
  | .bx => .bx c (rmField w)
  | .hook k => hookInstr k c (bodyBits w)
  | .undefined => undefinedInstr c (bodyBits w)

/-- Why a byte sequence is no instruction: one length only, 32 bits (R70). -/
inductive DecodeReject where
  /-- Fewer than four bytes are left. -/
  | truncated (bytesLeft : Nat)
  deriving DecidableEq, Repr

/-- Decode the first four bytes, the first the least significant (R52), and return the bytes after them. -/
def decode : List Byte → Except DecodeReject (Instr × List Byte)
  | b0 :: b1 :: b2 :: b3 :: rest => .ok (decodeWord (b3 ++ b2 ++ b1 ++ b0), rest)
  | bs => .error (.truncated bs.length)

/-- The four bytes of a word, the least significant first (R52). -/
def wordBytes (w : Word) : List Byte :=
  [w.extractLsb' 0 8, w.extractLsb' 8 8, w.extractLsb' 16 8, w.extractLsb' 24 8]

/-- What the decoder reads from the instruction whose bits are `w`, as spec/opcode_table.json numbers them: 32 bits in one
word; a longer instruction does not exist (R70). -/
def decodeTableWord (nbits w : Nat) : Option Instr :=
  if nbits ≤ 32 then
    match decode (wordBytes (BitVec.ofNat 32 (w % 2 ^ nbits))) with
    | .ok (i, _) => some i
    | .error _ => none
  else none

/-! ### The encoder -/

def encodeReg (r : RegIdx) : BitVec 4 := BitVec.ofFin r

/-- Format `DP_IMM` (R72). -/
def dpImmWord (op : Opcode) (c : Cond) (sf : Bool) (rn rd : RegIdx) (rot : BitVec 4) (imm8 : Byte) : Word :=
  c.toBits ++ 0b001#3 ++ op.toBits ++ BitVec.ofBool sf ++ encodeReg rn ++ encodeReg rd ++ rot ++ imm8

/-- Format `DP_REG_IMMSHIFT` (R73). -/
def dpImmShiftWord (op : Opcode) (c : Cond) (sf : Bool) (rn rd : RegIdx) (shamt5 : BitVec 5) (ty : ShiftType)
    (rm : RegIdx) : Word :=
  c.toBits ++ 0b000#3 ++ op.toBits ++ BitVec.ofBool sf ++ encodeReg rn ++ encodeReg rd ++ shamt5 ++ ty.toBits ++ 0#1
    ++ encodeReg rm

/-- Format `DP_REG_REGSHIFT` (R74). -/
def dpRegShiftWord (op : Opcode) (c : Cond) (sf : Bool) (rn rd rs : RegIdx) (ty : ShiftType) (rm : RegIdx) : Word :=
  c.toBits ++ 0b000#3 ++ op.toBits ++ BitVec.ofBool sf ++ encodeReg rn ++ encodeReg rd ++ encodeReg rs ++ 0#1
    ++ ty.toBits ++ 1#1 ++ encodeReg rm

/-- Format `BX` (R75). -/
def bxWord (c : Cond) (rm : RegIdx) : Word := c.toBits ++ 0x12FFF1#24 ++ encodeReg rm

/-- A word without an operand format: the condition, then the bits carried. -/
def bodyWord (c : Cond) (body : BitVec 28) : Word := c.toBits ++ body

/-- The word of an instruction, from the format tables of R72 to R75. -/
def encode : Instr → Word
  | .bx cond rm => bxWord cond rm
  | .psrRegBit4Clear cond body => bodyWord cond body
  | .psrRegBit4Set cond body => bodyWord cond body
  | .andImmShift cond sf rn rd shamt5 ty rm => dpImmShiftWord .and cond sf rn rd shamt5 ty rm
  | .eorImmShift cond sf rn rd shamt5 ty rm => dpImmShiftWord .eor cond sf rn rd shamt5 ty rm
  | .subImmShift cond sf rn rd shamt5 ty rm => dpImmShiftWord .sub cond sf rn rd shamt5 ty rm
  | .rsbImmShift cond sf rn rd shamt5 ty rm => dpImmShiftWord .rsb cond sf rn rd shamt5 ty rm
  | .addImmShift cond sf rn rd shamt5 ty rm => dpImmShiftWord .add cond sf rn rd shamt5 ty rm
  | .adcImmShift cond sf rn rd shamt5 ty rm => dpImmShiftWord .adc cond sf rn rd shamt5 ty rm
  | .sbcImmShift cond sf rn rd shamt5 ty rm => dpImmShiftWord .sbc cond sf rn rd shamt5 ty rm
  | .rscImmShift cond sf rn rd shamt5 ty rm => dpImmShiftWord .rsc cond sf rn rd shamt5 ty rm
  | .tstImmShift cond rn rd shamt5 ty rm => dpImmShiftWord .tst cond true rn rd shamt5 ty rm
  | .teqImmShift cond rn rd shamt5 ty rm => dpImmShiftWord .teq cond true rn rd shamt5 ty rm
  | .cmpImmShift cond rn rd shamt5 ty rm => dpImmShiftWord .cmp cond true rn rd shamt5 ty rm
  | .cmnImmShift cond rn rd shamt5 ty rm => dpImmShiftWord .cmn cond true rn rd shamt5 ty rm
  | .orrImmShift cond sf rn rd shamt5 ty rm => dpImmShiftWord .orr cond sf rn rd shamt5 ty rm
  | .movImmShift cond sf rn rd shamt5 ty rm => dpImmShiftWord .mov cond sf rn rd shamt5 ty rm
  | .bicImmShift cond sf rn rd shamt5 ty rm => dpImmShiftWord .bic cond sf rn rd shamt5 ty rm
  | .mvnImmShift cond sf rn rd shamt5 ty rm => dpImmShiftWord .mvn cond sf rn rd shamt5 ty rm
  | .andRegShift cond sf rn rd rs ty rm => dpRegShiftWord .and cond sf rn rd rs ty rm
  | .eorRegShift cond sf rn rd rs ty rm => dpRegShiftWord .eor cond sf rn rd rs ty rm
  | .subRegShift cond sf rn rd rs ty rm => dpRegShiftWord .sub cond sf rn rd rs ty rm
  | .rsbRegShift cond sf rn rd rs ty rm => dpRegShiftWord .rsb cond sf rn rd rs ty rm
  | .addRegShift cond sf rn rd rs ty rm => dpRegShiftWord .add cond sf rn rd rs ty rm
  | .adcRegShift cond sf rn rd rs ty rm => dpRegShiftWord .adc cond sf rn rd rs ty rm
  | .sbcRegShift cond sf rn rd rs ty rm => dpRegShiftWord .sbc cond sf rn rd rs ty rm
  | .rscRegShift cond sf rn rd rs ty rm => dpRegShiftWord .rsc cond sf rn rd rs ty rm
  | .tstRegShift cond rn rd rs ty rm => dpRegShiftWord .tst cond true rn rd rs ty rm
  | .teqRegShift cond rn rd rs ty rm => dpRegShiftWord .teq cond true rn rd rs ty rm
  | .cmpRegShift cond rn rd rs ty rm => dpRegShiftWord .cmp cond true rn rd rs ty rm
  | .cmnRegShift cond rn rd rs ty rm => dpRegShiftWord .cmn cond true rn rd rs ty rm
  | .orrRegShift cond sf rn rd rs ty rm => dpRegShiftWord .orr cond sf rn rd rs ty rm
  | .movRegShift cond sf rn rd rs ty rm => dpRegShiftWord .mov cond sf rn rd rs ty rm
  | .bicRegShift cond sf rn rd rs ty rm => dpRegShiftWord .bic cond sf rn rd rs ty rm
  | .mvnRegShift cond sf rn rd rs ty rm => dpRegShiftWord .mvn cond sf rn rd rs ty rm
  | .swp cond body => bodyWord cond body
  | .mul cond body => bodyWord cond body
  | .mull cond body => bodyWord cond body
  | .htReg cond body => bodyWord cond body
  | .htImm cond body => bodyWord cond body
  | .undefExtension cond body => bodyWord cond body
  | .psrImm cond body => bodyWord cond body
  | .andImm cond sf rn rd rot imm8 => dpImmWord .and cond sf rn rd rot imm8
  | .eorImm cond sf rn rd rot imm8 => dpImmWord .eor cond sf rn rd rot imm8
  | .subImm cond sf rn rd rot imm8 => dpImmWord .sub cond sf rn rd rot imm8
  | .rsbImm cond sf rn rd rot imm8 => dpImmWord .rsb cond sf rn rd rot imm8
  | .addImm cond sf rn rd rot imm8 => dpImmWord .add cond sf rn rd rot imm8
  | .adcImm cond sf rn rd rot imm8 => dpImmWord .adc cond sf rn rd rot imm8
  | .sbcImm cond sf rn rd rot imm8 => dpImmWord .sbc cond sf rn rd rot imm8
  | .rscImm cond sf rn rd rot imm8 => dpImmWord .rsc cond sf rn rd rot imm8
  | .tstImm cond rn rd rot imm8 => dpImmWord .tst cond true rn rd rot imm8
  | .teqImm cond rn rd rot imm8 => dpImmWord .teq cond true rn rd rot imm8
  | .cmpImm cond rn rd rot imm8 => dpImmWord .cmp cond true rn rd rot imm8
  | .cmnImm cond rn rd rot imm8 => dpImmWord .cmn cond true rn rd rot imm8
  | .orrImm cond sf rn rd rot imm8 => dpImmWord .orr cond sf rn rd rot imm8
  | .movImm cond sf rn rd rot imm8 => dpImmWord .mov cond sf rn rd rot imm8
  | .bicImm cond sf rn rd rot imm8 => dpImmWord .bic cond sf rn rd rot imm8
  | .mvnImm cond sf rn rd rot imm8 => dpImmWord .mvn cond sf rn rd rot imm8
  | .sdtImmPost cond body => bodyWord cond body
  | .sdtImmPre cond body => bodyWord cond body
  | .sdtRegPost cond body => bodyWord cond body
  | .undefCat6 cond body => bodyWord cond body
  | .sdtRegPre cond body => bodyWord cond body
  | .undefCat7 cond body => bodyWord cond body
  | .bdtPost cond body => bodyWord cond body
  | .bdtPre cond body => bodyWord cond body
  | .b cond body => bodyWord cond body
  | .bl cond body => bodyWord cond body
  | .cdtPost cond body => bodyWord cond body
  | .cdtPre cond body => bodyWord cond body
  | .cdo cond body => bodyWord cond body
  | .crt cond body => bodyWord cond body
  | .swi cond body => bodyWord cond body

end Sys2Proof
end

