-- ==== Sys2Proof/Config.lean ====
section
/-! DEFINITION. The named parameters of the spec: the four whose normative value the spec fixes (R9), and the values this
model names for what the spec leaves to the launch of a run (R10, R45). -/

namespace Sys2Proof.Config

/-- `PC_READ_OFFSET`: added to the pc when register 15 is read as an operand (R9, D16). -/
def pcReadOffset : Word := 4

/-- `ROR_REG_ZERO_QUIRK`: rotate right by a register amount that is 0 modulo 32 yields 0 (R9, D17). -/
def rorRegZeroQuirk : Bool := true

/-- The two settings of `SHIFTER_CARRY_REGFORM` (R9, D5): `silent` is the spec's `none`, `arm` the non-normative
carry-out table GK6 of 93_implementation_defined.md. -/
inductive ShifterCarry where
  | silent | arm
  deriving DecidableEq, Repr

/-- `SHIFTER_CARRY_REGFORM`, with its normative value `none` (R9, R156). -/
def shifterCarryRegform : ShifterCarry := .silent

/-- `NV_EXECUTES`: whether condition code 15 passes (R9, R115). -/
def nvExecutes : Bool := false

/-- `RESET_PC` of the model's own reset state. DESIGN CHOICE (log entry 1), unsafe: the spec leaves it open (R10, R45). -/
def resetPc : Word := 0

/-- What general registers 0 to 14 hold in the model's own reset state. DESIGN CHOICE (log entry 2), unsafe: the
spec calls the value unspecified (R45). -/
def resetReg : Word := 0

/-- What an address of the code store that is not listed reads as. DESIGN CHOICE (log entry 5), unsafe: `CODE` is a
parameter of the spec (R10, R50), and every total `CODE` is some list over this default. -/
def unlistedByte : Byte := 0

end Sys2Proof.Config
end

