-- ==== Sys2Proof/Machine/State.lean ====
section
/-! DEFINITION. The whole state the spec gives the machine (10_state.md): fifteen general registers, the pc, the current
and the saved status set, and the code store the machine fetches from; the reasons a step stops; the launch states and
the reset state. -/

namespace Sys2Proof.Machine

/-- The five 1-bit status fields; the spec gives them no layout inside a word (R27). -/
structure Status where
  n : Bool
  z : Bool
  c : Bool
  v : Bool
  /-- The mode flag: false is word-only (ARM state), true halfword-capable (R32). -/
  t : Bool
  deriving DecidableEq, Repr

/-- The code store as (address, byte) cells; an address that is not listed reads as `Config.unlistedByte` (R50, R36). -/
abbrev Memory := List Host.Cell

/-- The canonical form: addresses strictly rising and below 2^32, no entry equal to what an unlisted address reads as. -/
abbrev Memory.wf (m : Memory) : Prop :=
  m.Pairwise (fun p q => p.1 < q.1) ∧ ∀ p ∈ m, p.1 < 2 ^ 32 ∧ p.2 ≠ Config.unlistedByte

structure State where
  /-- `x[0]` to `x[14]` (R20). -/
  regs : Vector Word 15
  /-- The address of the instruction being executed (R23). -/
  pc : Word
  /-- The current status set (R27). -/
  cpsr : Status
  /-- The one saved status set (R33). -/
  spsr : Status
  /-- The code store, `CODE` of R10: read by instruction fetch only, written by no instruction (R36, R56). -/
  code : Memory
  deriving DecidableEq, Repr

/-- Reasons a step ends with the run gone wrong. -/
inductive Fault where
  /-- The outcome `Undefined(w)`: raised by the three `UNDEFINED` rows when their condition passes (R240). The spec gives
  the state after it no value, so stopping is safe. -/
  | undefined (w : Word)
  deriving DecidableEq, Repr

/-- Reasons the spec gives a step no meaning. -/
inductive Refusal where
  /-- An instruction that exec rejects by name; no arm does at present. Safe. -/
  | notModelled (mnemonic : String)
  /-- The outcome `Hook(K, w)`: raised by the hooked classes when their condition passes. The spec gives the state after
  it no value (R211), so stopping is safe. -/
  | hook (k : HookClass) (w : Word)
  /-- The outcome `Refused(ThumbState)`: raised by the step when it begins with T = 1 (R110). The spec gives it no meaning,
  so stopping is safe. -/
  | thumbState
  deriving DecidableEq, Repr

abbrev Result := Host.Outcome State Fault Refusal

/-- The launch parameters the spec leaves open (R10): `RESET_PC`, `INIT_REGS`, `INIT_CPSR` (its T is 0 by R45), `INIT_SPSR`
and `CODE`. -/
structure Launch where
  resetPc : Word
  initRegs : Vector Word 15
  initN : Bool
  initZ : Bool
  initC : Bool
  initV : Bool
  initSpsr : Status
  code : Memory
  deriving DecidableEq, Repr

/-- `RESET_PC` is a multiple of 4 (R10), and the code store is in canonical form. -/
abbrev Launch.ok (p : Launch) : Prop := p.resetPc.toNat % 4 = 0 ∧ p.code.wf

/-- The state at the first step of a run with the given parameters (R45, R260): T = 0, all else from the parameters. -/
def State.launch (p : Launch) : State where
  regs := p.initRegs
  pc := p.resetPc
  cpsr := ⟨p.initN, p.initZ, p.initC, p.initV, false⟩
  spsr := p.initSpsr
  code := p.code

/-- The parameters of the model's own reset state: no code listed, and the values log entries 1 to 4 name for what the
spec leaves unspecified. DESIGN CHOICE, unsafe; the launch states above range over all of them. -/
def Launch.default : Launch where
  resetPc := Config.resetPc
  initRegs := Vector.replicate 15 Config.resetReg
  initN := false
  initZ := false
  initC := false
  initV := false
  initSpsr := ⟨false, false, false, false, false⟩
  code := []

/-- The machine right after reset (R45, R260). -/
def State.reset : State := State.launch Launch.default

end Sys2Proof.Machine
end

