-- ==== Sys2Proof/Machine/Flags.lean ====
section
/-! DEFINITION. The condition evaluator (R113 to R115), the addition and subtraction flags (R172, R173) and the update of the
status set by a data-processing instruction with S = 1 (R112, R170, R171). -/

namespace Sys2Proof.Machine

/-- `CondPass(c)` with `NV_EXECUTES` as a parameter (R114, R115). -/
def condPassWith (nvExecutes : Bool) (c : Cond) (f : Status) : Bool :=
  match c with
  | .eq => f.z
  | .ne => !f.z
  | .cs => f.c
  | .cc => !f.c
  | .mi => f.n
  | .pl => !f.n
  | .vs => f.v
  | .vc => !f.v
  | .hi => f.c && !f.z
  | .ls => !f.c || f.z
  | .ge => f.n == f.v
  | .lt => f.n != f.v
  | .gt => !f.z && f.n == f.v
  | .le => f.z || f.n != f.v
  | .al => true
  | .nv => nvExecutes

/-- `CondPass(c)` (R114). -/
def condPass (c : Cond) (f : Status) : Bool := condPassWith Config.nvExecutes c f

/-- What the ALU yields: the result, and C' and V' from the arithmetic opcodes (R170). -/
structure AluResult where
  value : Word
  arith : Option (Bool × Bool)
  deriving DecidableEq, Repr

/-- `AddWithCarry(a, b, c)`: the exact unsigned and signed sums, narrowed (R172). -/
def addWithCarry (a b : Word) (c : Bool) : AluResult :=
  let usum : Nat := a.toNat + b.toNat + c.toNat
  let ssum : Int := a.toInt + b.toInt + c.toNat
  let result : Word := BitVec.ofNat 32 usum
  ⟨result, some (decide (2 ^ 32 ≤ usum), decide (ssum ≠ result.toInt))⟩

/-- `a − b − (1 − c)`, computed as `AddWithCarry(a, ~b, c)` (R173). -/
def subWithCarry (a b : Word) (c : Bool) : AluResult := addWithCarry a (~~~b) c

/-- The status set after a flag-setting data-processing instruction: first C from the operand path where it has one, then
N and Z, then C and V from the arithmetic opcodes; T is not written (R112, R170, R171). -/
def dpStatus (shifterC : Option Bool) (r : AluResult) (f : Status) : Status :=
  let f1 : Status := match shifterC with
    | some c => { f with c := c }
    | none => f
  let f2 : Status := { f1 with n := r.value.msb, z := r.value == 0 }
  match r.arith with
  | some (c, v) => { f2 with c := c, v := v }
  | none => f2

end Sys2Proof.Machine
end

