-- ==== Sys2Proof/Machine/Ops.lean ====
section
/-! DEFINITION. The named operations of the machine: the code store (R50 to R54), the register and pc access functions (R130
to R133), the advance of the pc (R24), the condition gate (R111), the two non-retiring outcomes of a passing word (R211, R240) and
the exception-return write (R132, R247). The spec has no exception ENTRY sequence (R243), so there is no operation for one. -/

namespace Sys2Proof.Machine

/-! ### The code store -/

/-- The byte at an address (R50): every address answers. -/
def Memory.read : Memory → Nat → Byte
  | [], _ => Config.unlistedByte
  | (k, b) :: rest, a => if k = a then b else Memory.read rest a

/-- Place a byte, keeping the canonical form. No instruction does this (R56): it is how a program is loaded. -/
def Memory.write : Memory → Nat → Byte → Memory
  | [], a, b => if b = Config.unlistedByte then [] else [(a, b)]
  | (k, v) :: rest, a, b =>
    if a < k then
      if b = Config.unlistedByte then (k, v) :: rest else (a, b) :: (k, v) :: rest
    else if k = a then
      if b = Config.unlistedByte then rest else (a, b) :: rest
    else (k, v) :: Memory.write rest a b

/-- `readByte(address)` (R50). -/
def readByte (m : Memory) (a : Word) : Byte := m.read a.toNat

/-- `MemRead(addr, n)`: little-endian, each address modulo 2^32 (R51). -/
def memRead (m : Memory) (a : Word) : (n : Nat) → BitVec (8 * n)
  | 0 => 0#0
  | n + 1 => (memRead m (a + 1) n ++ readByte m a : BitVec (8 * n + 8))

/-- Instruction fetch: the word at the pc, whatever its alignment (R52, R53). -/
def fetch (s : State) : Word := memRead s.code s.pc 4

/-- Place bytes at rising addresses, modulo 2^32. -/
def loadBytes (m : Memory) (a : Word) : List Byte → Memory
  | [] => m
  | b :: bs => loadBytes (m.write a.toNat b) (a + 1) bs

/-- Place a word where a fetch at `a` finds it. -/
def loadWord (m : Memory) (a w : Word) : Memory := loadBytes m a (wordBytes w)

/-! ### Registers and the pc -/

/-- `RegRead(i)` with the pc read offset as a parameter: register 15 reads as the pc plus the offset (R130). -/
def regReadWith (offset : Word) (i : RegIdx) (s : State) : Word :=
  if h : i.val < 15 then s.regs[i.val] else s.pc + offset

/-- `RegRead(i)` (R130, R134). -/
def regRead (i : RegIdx) (s : State) : Word := regReadWith Config.pcReadOffset i s

/-- A state inside a step, with the step-local "redirected" of R13. -/
structure Progress where
  state : State
  redirected : Bool
  deriving DecidableEq, Repr

/-- `pc <- target`, marking the step redirected (R13). -/
def redirect (target : Word) (s : State) : Progress := ⟨{ s with pc := target }, true⟩

/-- `x[i] <- v` for an index below 15. -/
def storeReg (i : Nat) (h : i < 15) (v : Word) (s : State) : State := { s with regs := s.regs.set i v h }

/-- Clear bits 1 and 0 (R131). -/
def alignWord (v : Word) : Word := v &&& 0xFFFFFFFC

/-- Clear bit 0 (R132). -/
def alignHalf (v : Word) : Word := v &&& 0xFFFFFFFE

/-- The target mask a mode uses: one bit in T = 1, two in T = 0 (R132, R210). -/
def alignFor (t : Bool) (v : Word) : Word := if t then alignHalf v else alignWord v

/-- `WriteReg(i, v)`: store, or branch when i = 15 (R131). -/
def writeReg (i : RegIdx) (v : Word) (s : State) : Progress :=
  if h : i.val < 15 then ⟨storeReg i.val h v s, false⟩ else redirect (alignWord v) s

/-- The return from exception: `CPSR <- SPSR`, then branch with the mask the restored T selects (R132, R247). -/
def exceptionReturn (v : Word) (s : State) : Progress :=
  redirect (alignFor s.spsr.t v) { s with cpsr := s.spsr }

/-- `WriteRegS(i, v)`: store, or return from exception when i = 15 (R132). -/
def writeRegS (i : RegIdx) (v : Word) (s : State) : Progress :=
  if h : i.val < 15 then ⟨storeReg i.val h v s, false⟩ else exceptionReturn v s

/-! ### Outcomes -/

/-- `pc <- pc + 4`, modulo 2^32 (R24, R26). -/
def advance (s : State) : State := { s with pc := s.pc + 4 }

/-- The end of a step that executed: "if not redirected: pc <- pc + 4", outcome `Retired` (R110, R24). -/
def retire (p : Progress) : Result := .next (if p.redirected then p.state else advance p.state)

/-- The condition gate: a failing condition makes the instruction a no-op that only advances the pc (R111). -/
def gated (c : Cond) (s : State) (body : Result) : Result :=
  if condPass c s.cpsr then body else .next (advance s)

/-- The outcome `Hook(K, w)` (R211). -/
def hook (k : HookClass) (w : Word) : Result := .refused (.hook k w)

/-- The outcome `Undefined(w)` (R240). -/
def undefinedTrap (w : Word) : Result := .fault (.undefined w)

end Sys2Proof.Machine
end

