-- ==== Sys2Proof/Machine/BranchExchange.lean ====
section
/-! DEFINITION. Branch and exchange (R210). -/

namespace Sys2Proof.Machine

/-- BX: T from bit 0 of the register, then a branch masked for the new T; no other state changes (R210). -/
def execBx (cond : Cond) (rm : RegIdx) (s : State) : Result :=
  let v := regRead rm s
  gated cond s <| retire <| redirect (alignFor (v.getLsbD 0) v) { s with cpsr := { s.cpsr with t := v.getLsbD 0 } }

end Sys2Proof.Machine
end

