-- ==== Sys2Proof/Machine/Operands.lean ====
section
/-! DEFINITION. The second operand (42_operand2_shifter.md): the rotated immediate and its carry (R140, R141), the shifter by an
immediate amount (R145 to R148, R151) and by a register amount (R150, R152 to R155), and the carry of the register-operand forms,
which the normative setting leaves out (R156). -/

namespace Sys2Proof.Machine

/-- The second operand and the carry the operand path produces, if any (R158). -/
structure OperandValue where
  value : Word
  carry : Option Bool
  deriving DecidableEq, Repr

/-- `ROR(v, n)` for 0 ≤ n ≤ 31 (R12). -/
def ror32 (v : Word) (n : Nat) : Word := if n = 0 then v else (v >>> n) ||| (v <<< (32 - n))

/-- The immediate operand's value (R77, R140). -/
def immValue (rot : BitVec 4) (imm8 : Byte) : Word := ror32 (imm8.zeroExtend 32) (2 * rot.toNat)

/-- The immediate operand: with S = 1 and a non-zero rotation it yields bit 31 of the value as the carry (R140, R141). -/
def immOperand (rot : BitVec 4) (imm8 : Byte) (setFlags : Bool) : OperandValue :=
  ⟨immValue rot imm8, if setFlags && rot != 0 then some (immValue rot imm8).msb else none⟩

/-- RRX (R151). -/
def rrx (m : Word) (cin : Bool) : Word := ((BitVec.ofBool cin).zeroExtend 32 <<< 31) ||| (m >>> 1)

/-- `ShiftImm(type, n, m)`, n = 0 to 31 (R145 to R149, R151). -/
def shiftImm (ty : ShiftType) (n : Nat) (m : Word) (cin : Bool) : Word :=
  match ty with
  | .lsl => m <<< n
  | .lsr => if n = 0 then 0 else m >>> n
  | .asr => if n = 0 then m.sshiftRight 31 else m.sshiftRight n
  | .ror => if n = 0 then rrx m cin else ror32 m n

/-- `ShiftReg(type, a, m)`, a = 0 to 255, with `ROR_REG_ZERO_QUIRK` as a parameter (R152 to R155). -/
def shiftRegWith (zeroQuirk : Bool) (ty : ShiftType) (a : Nat) (m : Word) : Word :=
  match ty with
  | .lsl => if 32 ≤ a then 0 else m <<< a
  | .lsr => if 32 ≤ a then 0 else m >>> a
  | .asr => m.sshiftRight (min a 31)
  | .ror => if a % 32 = 0 then (if zeroQuirk then 0 else m) else ror32 m (a % 32)

/-- `ShiftReg(type, a, m)` (R152 to R155). -/
def shiftReg (ty : ShiftType) (a : Nat) (m : Word) : Word := shiftRegWith Config.rorRegZeroQuirk ty a m

/-- The amount of a register-specified shift: the low byte (R150). -/
def shiftAmount (v : Word) : Nat := (v.extractLsb' 0 8).toNat

/-- The non-normative carry-out of the setting `arm`, immediate amount (table GK6 of 93_implementation_defined.md). -/
def armCarryImm (ty : ShiftType) (n : Nat) (m : Word) (cin : Bool) : Bool :=
  match ty with
  | .lsl => if n = 0 then cin else m.getLsbD (32 - n)
  | .lsr => if n = 0 then m.msb else m.getLsbD (n - 1)
  | .asr => if n = 0 then m.msb else m.getLsbD (n - 1)
  | .ror => if n = 0 then m.getLsbD 0 else m.getLsbD (n - 1)

/-- The non-normative carry-out of the setting `arm`, register amount (table GK6). -/
def armCarryReg (ty : ShiftType) (a : Nat) (m : Word) (cin : Bool) : Bool :=
  if a = 0 then cin
  else match ty with
    | .lsl => if a ≤ 32 then m.getLsbD (32 - a) else false
    | .lsr => if a ≤ 32 then m.getLsbD (a - 1) else false
    | .asr => if a ≤ 31 then m.getLsbD (a - 1) else m.msb
    | .ror => if a % 32 = 0 then m.msb else m.getLsbD (a % 32 - 1)

/-- The carry of a register-operand form: none under the normative setting, for either S (R156). -/
def regFormCarry (setting : Config.ShifterCarry) (setFlags armCarry : Bool) : Option Bool :=
  match setting with
  | .silent => none
  | .arm => if setFlags then some armCarry else none

/-- `Op2(w)` (R158): every register is read through `regRead`, the carry in is C at the start of the step (R112). -/
def operand2 (o : Operand2) (setFlags : Bool) (s : State) : OperandValue :=
  match o with
  | .imm rot imm8 => immOperand rot imm8 setFlags
  | .immShift shamt5 ty rm =>
    let m := regRead rm s
    ⟨shiftImm ty shamt5.toNat m s.cpsr.c,
      regFormCarry Config.shifterCarryRegform setFlags (armCarryImm ty shamt5.toNat m s.cpsr.c)⟩
  | .regShift rs ty rm =>
    let m := regRead rm s
    let a := shiftAmount (regRead rs s)
    ⟨shiftReg ty a m, regFormCarry Config.shifterCarryRegform setFlags (armCarryReg ty a m s.cpsr.c)⟩

end Sys2Proof.Machine
end

