-- ==== Sys2Proof/Machine/DataProcessing.lean ====
section
/-! DEFINITION. The data-processing executor (R170) and the sixteen ALU operations (R174 to R189, R192). -/

namespace Sys2Proof.Machine

/-! ### The ALU: op1, op2 and the carry in -/

/-- R174. -/
def aluAnd (op1 op2 : Word) (_cin : Bool) : AluResult := ⟨op1 &&& op2, none⟩
/-- R175. -/
def aluEor (op1 op2 : Word) (_cin : Bool) : AluResult := ⟨op1 ^^^ op2, none⟩
/-- R176. -/
def aluSub (op1 op2 : Word) (_cin : Bool) : AluResult := subWithCarry op1 op2 true
/-- R177. -/
def aluRsb (op1 op2 : Word) (_cin : Bool) : AluResult := subWithCarry op2 op1 true
/-- R178. -/
def aluAdd (op1 op2 : Word) (_cin : Bool) : AluResult := addWithCarry op1 op2 false
/-- R179. -/
def aluAdc (op1 op2 : Word) (cin : Bool) : AluResult := addWithCarry op1 op2 cin
/-- R180. -/
def aluSbc (op1 op2 : Word) (cin : Bool) : AluResult := subWithCarry op1 op2 cin
/-- R181. -/
def aluRsc (op1 op2 : Word) (cin : Bool) : AluResult := subWithCarry op2 op1 cin
/-- R182. -/
def aluTst (op1 op2 : Word) (_cin : Bool) : AluResult := ⟨op1 &&& op2, none⟩
/-- R183. -/
def aluTeq (op1 op2 : Word) (_cin : Bool) : AluResult := ⟨op1 ^^^ op2, none⟩
/-- R184. -/
def aluCmp (op1 op2 : Word) (_cin : Bool) : AluResult := subWithCarry op1 op2 true
/-- R185. -/
def aluCmn (op1 op2 : Word) (_cin : Bool) : AluResult := addWithCarry op1 op2 false
/-- R186. -/
def aluOrr (op1 op2 : Word) (_cin : Bool) : AluResult := ⟨op1 ||| op2, none⟩
/-- R187: op1 is not used. -/
def aluMov (_op1 op2 : Word) (_cin : Bool) : AluResult := ⟨op2, none⟩
/-- R188. -/
def aluBic (op1 op2 : Word) (_cin : Bool) : AluResult := ⟨op1 &&& ~~~op2, none⟩
/-- R189: op1 is not used. -/
def aluMvn (_op1 op2 : Word) (_cin : Bool) : AluResult := ⟨~~~op2, none⟩

/-! ### The executor -/

/-- The ALU's result on the operands as they stand when the step begins (R112, R170). -/
def dpAlu (alu : Word → Word → Bool → AluResult) (setFlags : Bool) (rn : RegIdx) (o : Operand2) (s : State) : AluResult :=
  alu (regRead rn s) (operand2 o setFlags s).value s.cpsr.c

/-- The flag update of S = 1 (R170, R171). -/
def dpSetFlags (alu : Word → Word → Bool → AluResult) (rn : RegIdx) (o : Operand2) (s : State) : State :=
  { s with cpsr := dpStatus (operand2 o true s).carry (dpAlu alu true rn o s) s.cpsr }

/-- `ExecDP` for the twelve opcodes that write Rd: with S = 0 by `WriteReg`, with S = 1 after the flag update by `WriteRegS`
(R170, R133). -/
def dataProcess (alu : Word → Word → Bool → AluResult) (c : Cond) (setFlags : Bool) (rn rd : RegIdx) (o : Operand2)
    (s : State) : Result :=
  gated c s <| retire <|
    if setFlags then writeRegS rd (dpAlu alu true rn o s).value (dpSetFlags alu rn o s)
    else writeReg rd (dpAlu alu false rn o s).value s

/-- `ExecDP` for TST, TEQ, CMP and CMN: flags only; the Rd field is ignored, 15 too (R190). -/
def dataTest (alu : Word → Word → Bool → AluResult) (c : Cond) (rn _rd : RegIdx) (o : Operand2) (s : State) : Result :=
  gated c s <| retire ⟨dpSetFlags alu rn o s, false⟩

end Sys2Proof.Machine
end

