-- ==== Sys2Proof/Machine/DpArith.lean ====
section
/-! DEFINITION. The arithmetic opcodes that write Rd: SUB, RSB, ADD, ADC, SBC, RSC (R176 to R181), each in three operand forms. -/

namespace Sys2Proof.Machine

/-- SUB, format `DP_IMM` (R176). -/
def execSubImm (cond : Cond) (sf : Bool) (rn rd : RegIdx) (rot : BitVec 4) (imm8 : Byte) (s : State) : Result :=
  dataProcess aluSub cond sf rn rd (.imm rot imm8) s

/-- SUB, format `DP_REG_IMMSHIFT` (R176). -/
def execSubImmShift (cond : Cond) (sf : Bool) (rn rd : RegIdx) (shamt5 : BitVec 5) (ty : ShiftType) (rm : RegIdx) (s : State) : Result :=
  dataProcess aluSub cond sf rn rd (.immShift shamt5 ty rm) s

/-- SUB, format `DP_REG_REGSHIFT` (R176). -/
def execSubRegShift (cond : Cond) (sf : Bool) (rn rd rs : RegIdx) (ty : ShiftType) (rm : RegIdx) (s : State) : Result :=
  dataProcess aluSub cond sf rn rd (.regShift rs ty rm) s

/-- RSB, format `DP_IMM` (R177). -/
def execRsbImm (cond : Cond) (sf : Bool) (rn rd : RegIdx) (rot : BitVec 4) (imm8 : Byte) (s : State) : Result :=
  dataProcess aluRsb cond sf rn rd (.imm rot imm8) s

/-- RSB, format `DP_REG_IMMSHIFT` (R177). -/
def execRsbImmShift (cond : Cond) (sf : Bool) (rn rd : RegIdx) (shamt5 : BitVec 5) (ty : ShiftType) (rm : RegIdx) (s : State) : Result :=
  dataProcess aluRsb cond sf rn rd (.immShift shamt5 ty rm) s

/-- RSB, format `DP_REG_REGSHIFT` (R177). -/
def execRsbRegShift (cond : Cond) (sf : Bool) (rn rd rs : RegIdx) (ty : ShiftType) (rm : RegIdx) (s : State) : Result :=
  dataProcess aluRsb cond sf rn rd (.regShift rs ty rm) s

/-- ADD, format `DP_IMM` (R178). -/
def execAddImm (cond : Cond) (sf : Bool) (rn rd : RegIdx) (rot : BitVec 4) (imm8 : Byte) (s : State) : Result :=
  dataProcess aluAdd cond sf rn rd (.imm rot imm8) s

/-- ADD, format `DP_REG_IMMSHIFT` (R178). -/
def execAddImmShift (cond : Cond) (sf : Bool) (rn rd : RegIdx) (shamt5 : BitVec 5) (ty : ShiftType) (rm : RegIdx) (s : State) : Result :=
  dataProcess aluAdd cond sf rn rd (.immShift shamt5 ty rm) s

/-- ADD, format `DP_REG_REGSHIFT` (R178). -/
def execAddRegShift (cond : Cond) (sf : Bool) (rn rd rs : RegIdx) (ty : ShiftType) (rm : RegIdx) (s : State) : Result :=
  dataProcess aluAdd cond sf rn rd (.regShift rs ty rm) s

/-- ADC, format `DP_IMM` (R179). -/
def execAdcImm (cond : Cond) (sf : Bool) (rn rd : RegIdx) (rot : BitVec 4) (imm8 : Byte) (s : State) : Result :=
  dataProcess aluAdc cond sf rn rd (.imm rot imm8) s

/-- ADC, format `DP_REG_IMMSHIFT` (R179). -/
def execAdcImmShift (cond : Cond) (sf : Bool) (rn rd : RegIdx) (shamt5 : BitVec 5) (ty : ShiftType) (rm : RegIdx) (s : State) : Result :=
  dataProcess aluAdc cond sf rn rd (.immShift shamt5 ty rm) s

/-- ADC, format `DP_REG_REGSHIFT` (R179). -/
def execAdcRegShift (cond : Cond) (sf : Bool) (rn rd rs : RegIdx) (ty : ShiftType) (rm : RegIdx) (s : State) : Result :=
  dataProcess aluAdc cond sf rn rd (.regShift rs ty rm) s

/-- SBC, format `DP_IMM` (R180). -/
def execSbcImm (cond : Cond) (sf : Bool) (rn rd : RegIdx) (rot : BitVec 4) (imm8 : Byte) (s : State) : Result :=
  dataProcess aluSbc cond sf rn rd (.imm rot imm8) s

/-- SBC, format `DP_REG_IMMSHIFT` (R180). -/
def execSbcImmShift (cond : Cond) (sf : Bool) (rn rd : RegIdx) (shamt5 : BitVec 5) (ty : ShiftType) (rm : RegIdx) (s : State) : Result :=
  dataProcess aluSbc cond sf rn rd (.immShift shamt5 ty rm) s

/-- SBC, format `DP_REG_REGSHIFT` (R180). -/
def execSbcRegShift (cond : Cond) (sf : Bool) (rn rd rs : RegIdx) (ty : ShiftType) (rm : RegIdx) (s : State) : Result :=
  dataProcess aluSbc cond sf rn rd (.regShift rs ty rm) s

/-- RSC, format `DP_IMM` (R181). -/
def execRscImm (cond : Cond) (sf : Bool) (rn rd : RegIdx) (rot : BitVec 4) (imm8 : Byte) (s : State) : Result :=
  dataProcess aluRsc cond sf rn rd (.imm rot imm8) s

/-- RSC, format `DP_REG_IMMSHIFT` (R181). -/
def execRscImmShift (cond : Cond) (sf : Bool) (rn rd : RegIdx) (shamt5 : BitVec 5) (ty : ShiftType) (rm : RegIdx) (s : State) : Result :=
  dataProcess aluRsc cond sf rn rd (.immShift shamt5 ty rm) s

/-- RSC, format `DP_REG_REGSHIFT` (R181). -/
def execRscRegShift (cond : Cond) (sf : Bool) (rn rd rs : RegIdx) (ty : ShiftType) (rm : RegIdx) (s : State) : Result :=
  dataProcess aluRsc cond sf rn rd (.regShift rs ty rm) s

end Sys2Proof.Machine
end

