-- ==== Sys2Proof/Machine/DpLogical.lean ====
section
/-! DEFINITION. The logical opcodes that write Rd: AND, EOR, ORR, MOV, BIC, MVN (R174, R175, R186 to R189), each in three
operand forms. -/

namespace Sys2Proof.Machine

/-- AND, format `DP_IMM` (R174). -/
def execAndImm (cond : Cond) (sf : Bool) (rn rd : RegIdx) (rot : BitVec 4) (imm8 : Byte) (s : State) : Result :=
  dataProcess aluAnd cond sf rn rd (.imm rot imm8) s

/-- AND, format `DP_REG_IMMSHIFT` (R174). -/
def execAndImmShift (cond : Cond) (sf : Bool) (rn rd : RegIdx) (shamt5 : BitVec 5) (ty : ShiftType) (rm : RegIdx) (s : State) : Result :=
  dataProcess aluAnd cond sf rn rd (.immShift shamt5 ty rm) s

/-- AND, format `DP_REG_REGSHIFT` (R174). -/
def execAndRegShift (cond : Cond) (sf : Bool) (rn rd rs : RegIdx) (ty : ShiftType) (rm : RegIdx) (s : State) : Result :=
  dataProcess aluAnd cond sf rn rd (.regShift rs ty rm) s

/-- EOR, format `DP_IMM` (R175). -/
def execEorImm (cond : Cond) (sf : Bool) (rn rd : RegIdx) (rot : BitVec 4) (imm8 : Byte) (s : State) : Result :=
  dataProcess aluEor cond sf rn rd (.imm rot imm8) s

/-- EOR, format `DP_REG_IMMSHIFT` (R175). -/
def execEorImmShift (cond : Cond) (sf : Bool) (rn rd : RegIdx) (shamt5 : BitVec 5) (ty : ShiftType) (rm : RegIdx) (s : State) : Result :=
  dataProcess aluEor cond sf rn rd (.immShift shamt5 ty rm) s

/-- EOR, format `DP_REG_REGSHIFT` (R175). -/
def execEorRegShift (cond : Cond) (sf : Bool) (rn rd rs : RegIdx) (ty : ShiftType) (rm : RegIdx) (s : State) : Result :=
  dataProcess aluEor cond sf rn rd (.regShift rs ty rm) s

/-- ORR, format `DP_IMM` (R186). -/
def execOrrImm (cond : Cond) (sf : Bool) (rn rd : RegIdx) (rot : BitVec 4) (imm8 : Byte) (s : State) : Result :=
  dataProcess aluOrr cond sf rn rd (.imm rot imm8) s

/-- ORR, format `DP_REG_IMMSHIFT` (R186). -/
def execOrrImmShift (cond : Cond) (sf : Bool) (rn rd : RegIdx) (shamt5 : BitVec 5) (ty : ShiftType) (rm : RegIdx) (s : State) : Result :=
  dataProcess aluOrr cond sf rn rd (.immShift shamt5 ty rm) s

/-- ORR, format `DP_REG_REGSHIFT` (R186). -/
def execOrrRegShift (cond : Cond) (sf : Bool) (rn rd rs : RegIdx) (ty : ShiftType) (rm : RegIdx) (s : State) : Result :=
  dataProcess aluOrr cond sf rn rd (.regShift rs ty rm) s

/-- MOV, format `DP_IMM` (R187). -/
def execMovImm (cond : Cond) (sf : Bool) (rn rd : RegIdx) (rot : BitVec 4) (imm8 : Byte) (s : State) : Result :=
  dataProcess aluMov cond sf rn rd (.imm rot imm8) s

/-- MOV, format `DP_REG_IMMSHIFT` (R187). -/
def execMovImmShift (cond : Cond) (sf : Bool) (rn rd : RegIdx) (shamt5 : BitVec 5) (ty : ShiftType) (rm : RegIdx) (s : State) : Result :=
  dataProcess aluMov cond sf rn rd (.immShift shamt5 ty rm) s

/-- MOV, format `DP_REG_REGSHIFT` (R187). -/
def execMovRegShift (cond : Cond) (sf : Bool) (rn rd rs : RegIdx) (ty : ShiftType) (rm : RegIdx) (s : State) : Result :=
  dataProcess aluMov cond sf rn rd (.regShift rs ty rm) s

/-- BIC, format `DP_IMM` (R188). -/
def execBicImm (cond : Cond) (sf : Bool) (rn rd : RegIdx) (rot : BitVec 4) (imm8 : Byte) (s : State) : Result :=
  dataProcess aluBic cond sf rn rd (.imm rot imm8) s

/-- BIC, format `DP_REG_IMMSHIFT` (R188). -/
def execBicImmShift (cond : Cond) (sf : Bool) (rn rd : RegIdx) (shamt5 : BitVec 5) (ty : ShiftType) (rm : RegIdx) (s : State) : Result :=
  dataProcess aluBic cond sf rn rd (.immShift shamt5 ty rm) s

/-- BIC, format `DP_REG_REGSHIFT` (R188). -/
def execBicRegShift (cond : Cond) (sf : Bool) (rn rd rs : RegIdx) (ty : ShiftType) (rm : RegIdx) (s : State) : Result :=
  dataProcess aluBic cond sf rn rd (.regShift rs ty rm) s

/-- MVN, format `DP_IMM` (R189). -/
def execMvnImm (cond : Cond) (sf : Bool) (rn rd : RegIdx) (rot : BitVec 4) (imm8 : Byte) (s : State) : Result :=
  dataProcess aluMvn cond sf rn rd (.imm rot imm8) s

/-- MVN, format `DP_REG_IMMSHIFT` (R189). -/
def execMvnImmShift (cond : Cond) (sf : Bool) (rn rd : RegIdx) (shamt5 : BitVec 5) (ty : ShiftType) (rm : RegIdx) (s : State) : Result :=
  dataProcess aluMvn cond sf rn rd (.immShift shamt5 ty rm) s

/-- MVN, format `DP_REG_REGSHIFT` (R189). -/
def execMvnRegShift (cond : Cond) (sf : Bool) (rn rd rs : RegIdx) (ty : ShiftType) (rm : RegIdx) (s : State) : Result :=
  dataProcess aluMvn cond sf rn rd (.regShift rs ty rm) s

end Sys2Proof.Machine
end

