-- ==== Sys2Proof/Machine/DpTest.lean ====
section
/-! DEFINITION. The opcodes that only set flags: TST, TEQ, CMP, CMN (R182 to R185, R190), each in three operand forms. -/

namespace Sys2Proof.Machine

/-- TST, format `DP_IMM` (R182). -/
def execTstImm (cond : Cond) (rn rd : RegIdx) (rot : BitVec 4) (imm8 : Byte) (s : State) : Result :=
  dataTest aluTst cond rn rd (.imm rot imm8) s

/-- TST, format `DP_REG_IMMSHIFT` (R182). -/
def execTstImmShift (cond : Cond) (rn rd : RegIdx) (shamt5 : BitVec 5) (ty : ShiftType) (rm : RegIdx) (s : State) : Result :=
  dataTest aluTst cond rn rd (.immShift shamt5 ty rm) s

/-- TST, format `DP_REG_REGSHIFT` (R182). -/
def execTstRegShift (cond : Cond) (rn rd rs : RegIdx) (ty : ShiftType) (rm : RegIdx) (s : State) : Result :=
  dataTest aluTst cond rn rd (.regShift rs ty rm) s

/-- TEQ, format `DP_IMM` (R183). -/
def execTeqImm (cond : Cond) (rn rd : RegIdx) (rot : BitVec 4) (imm8 : Byte) (s : State) : Result :=
  dataTest aluTeq cond rn rd (.imm rot imm8) s

/-- TEQ, format `DP_REG_IMMSHIFT` (R183). -/
def execTeqImmShift (cond : Cond) (rn rd : RegIdx) (shamt5 : BitVec 5) (ty : ShiftType) (rm : RegIdx) (s : State) : Result :=
  dataTest aluTeq cond rn rd (.immShift shamt5 ty rm) s

/-- TEQ, format `DP_REG_REGSHIFT` (R183). -/
def execTeqRegShift (cond : Cond) (rn rd rs : RegIdx) (ty : ShiftType) (rm : RegIdx) (s : State) : Result :=
  dataTest aluTeq cond rn rd (.regShift rs ty rm) s

/-- CMP, format `DP_IMM` (R184). -/
def execCmpImm (cond : Cond) (rn rd : RegIdx) (rot : BitVec 4) (imm8 : Byte) (s : State) : Result :=
  dataTest aluCmp cond rn rd (.imm rot imm8) s

/-- CMP, format `DP_REG_IMMSHIFT` (R184). -/
def execCmpImmShift (cond : Cond) (rn rd : RegIdx) (shamt5 : BitVec 5) (ty : ShiftType) (rm : RegIdx) (s : State) : Result :=
  dataTest aluCmp cond rn rd (.immShift shamt5 ty rm) s

/-- CMP, format `DP_REG_REGSHIFT` (R184). -/
def execCmpRegShift (cond : Cond) (rn rd rs : RegIdx) (ty : ShiftType) (rm : RegIdx) (s : State) : Result :=
  dataTest aluCmp cond rn rd (.regShift rs ty rm) s

/-- CMN, format `DP_IMM` (R185). -/
def execCmnImm (cond : Cond) (rn rd : RegIdx) (rot : BitVec 4) (imm8 : Byte) (s : State) : Result :=
  dataTest aluCmn cond rn rd (.imm rot imm8) s

/-- CMN, format `DP_REG_IMMSHIFT` (R185). -/
def execCmnImmShift (cond : Cond) (rn rd : RegIdx) (shamt5 : BitVec 5) (ty : ShiftType) (rm : RegIdx) (s : State) : Result :=
  dataTest aluCmn cond rn rd (.immShift shamt5 ty rm) s

/-- CMN, format `DP_REG_REGSHIFT` (R185). -/
def execCmnRegShift (cond : Cond) (rn rd rs : RegIdx) (ty : ShiftType) (rm : RegIdx) (s : State) : Result :=
  dataTest aluCmn cond rn rd (.regShift rs ty rm) s

end Sys2Proof.Machine
end

