-- ==== Sys2Proof/Machine/Hooks.lean ====
section
/-! DEFINITION. The hooked classes (R211 to R232): with a passing condition the step ends with outcome `Hook(K, w)`, the spec
giving the state after it no value; with a failing condition the word is skipped like any other (R111). -/

namespace Sys2Proof.Machine

/-- Class `PSR_REG`, bit 4 clear (R213). -/
def execPsrRegBit4Clear (cond : Cond) (body : BitVec 28) (s : State) : Result :=
  gated cond s (hook .psrReg (bodyWord cond body))

/-- Class `PSR_REG`, bit 4 set (R213). -/
def execPsrRegBit4Set (cond : Cond) (body : BitVec 28) (s : State) : Result :=
  gated cond s (hook .psrReg (bodyWord cond body))

/-- Class `SWP` (R217). -/
def execSwp (cond : Cond) (body : BitVec 28) (s : State) : Result :=
  gated cond s (hook .swp (bodyWord cond body))

/-- Class `MUL` (R215). -/
def execMul (cond : Cond) (body : BitVec 28) (s : State) : Result :=
  gated cond s (hook .mul (bodyWord cond body))

/-- Class `MULL` (R216). -/
def execMull (cond : Cond) (body : BitVec 28) (s : State) : Result :=
  gated cond s (hook .mull (bodyWord cond body))

/-- Class `HT_REG` (R218). -/
def execHtReg (cond : Cond) (body : BitVec 28) (s : State) : Result :=
  gated cond s (hook .htReg (bodyWord cond body))

/-- Class `HT_IMM` (R219). -/
def execHtImm (cond : Cond) (body : BitVec 28) (s : State) : Result :=
  gated cond s (hook .htImm (bodyWord cond body))

/-- Class `PSR_IMM` (R214). -/
def execPsrImm (cond : Cond) (body : BitVec 28) (s : State) : Result :=
  gated cond s (hook .psrImm (bodyWord cond body))

/-- Class `SDT_IMM_POST` (R220). -/
def execSdtImmPost (cond : Cond) (body : BitVec 28) (s : State) : Result :=
  gated cond s (hook .sdtImmPost (bodyWord cond body))

/-- Class `SDT_IMM_PRE` (R221). -/
def execSdtImmPre (cond : Cond) (body : BitVec 28) (s : State) : Result :=
  gated cond s (hook .sdtImmPre (bodyWord cond body))

/-- Class `SDT_REG_POST` (R222). -/
def execSdtRegPost (cond : Cond) (body : BitVec 28) (s : State) : Result :=
  gated cond s (hook .sdtRegPost (bodyWord cond body))

/-- Class `SDT_REG_PRE` (R223). -/
def execSdtRegPre (cond : Cond) (body : BitVec 28) (s : State) : Result :=
  gated cond s (hook .sdtRegPre (bodyWord cond body))

/-- Class `BDT_POST` (R224). -/
def execBdtPost (cond : Cond) (body : BitVec 28) (s : State) : Result :=
  gated cond s (hook .bdtPost (bodyWord cond body))

/-- Class `BDT_PRE` (R225). -/
def execBdtPre (cond : Cond) (body : BitVec 28) (s : State) : Result :=
  gated cond s (hook .bdtPre (bodyWord cond body))

/-- Class `B` (R226). -/
def execB (cond : Cond) (body : BitVec 28) (s : State) : Result :=
  gated cond s (hook .b (bodyWord cond body))

/-- Class `BL` (R227). -/
def execBl (cond : Cond) (body : BitVec 28) (s : State) : Result :=
  gated cond s (hook .bl (bodyWord cond body))

/-- Class `CDT_POST` (R228). -/
def execCdtPost (cond : Cond) (body : BitVec 28) (s : State) : Result :=
  gated cond s (hook .cdtPost (bodyWord cond body))

/-- Class `CDT_PRE` (R229). -/
def execCdtPre (cond : Cond) (body : BitVec 28) (s : State) : Result :=
  gated cond s (hook .cdtPre (bodyWord cond body))

/-- Class `CDO` (R230). -/
def execCdo (cond : Cond) (body : BitVec 28) (s : State) : Result :=
  gated cond s (hook .cdo (bodyWord cond body))

/-- Class `CRT` (R231). -/
def execCrt (cond : Cond) (body : BitVec 28) (s : State) : Result :=
  gated cond s (hook .crt (bodyWord cond body))

/-- Class `SWI` (R232). -/
def execSwi (cond : Cond) (body : BitVec 28) (s : State) : Result :=
  gated cond s (hook .swi (bodyWord cond body))

end Sys2Proof.Machine
end

