-- ==== Sys2Proof/Machine/UndefinedWords.lean ====
section
/-! DEFINITION. The three rows of class `UNDEFINED` (R98, R240): with a passing condition the step ends with outcome
`Undefined(w)` and nothing changed; with a failing condition the word is skipped (R111). -/

namespace Sys2Proof.Machine

/-- `UNDEFINED`: the rest of the extension space (R98, R240). -/
def execUndefExtension (cond : Cond) (body : BitVec 28) (s : State) : Result :=
  gated cond s (undefinedTrap (bodyWord cond body))

/-- `UNDEFINED`: category 0x6, bit 4 set (R98, R240). -/
def execUndefCat6 (cond : Cond) (body : BitVec 28) (s : State) : Result :=
  gated cond s (undefinedTrap (bodyWord cond body))

/-- `UNDEFINED`: category 0x7, bit 4 set (R98, R240). -/
def execUndefCat7 (cond : Cond) (body : BitVec 28) (s : State) : Result :=
  gated cond s (undefinedTrap (bodyWord cond body))

end Sys2Proof.Machine
end

