-- ==== Sys2Proof/Machine/Dispatch.lean ====
section
/-! DEFINITION. Dispatch: one arm per instruction (R117). -/

namespace Sys2Proof.Machine

/-- Run one instruction, its condition included (R111, R117). -/
def exec (i : Instr) (s : State) : Host.Outcome State Fault Refusal :=
  match i with
  | .bx cond rm => Sys2Proof.Machine.execBx cond rm s
  | .psrRegBit4Clear cond body => Sys2Proof.Machine.execPsrRegBit4Clear cond body s
  | .psrRegBit4Set cond body => Sys2Proof.Machine.execPsrRegBit4Set cond body s
  | .andImmShift cond sf rn rd shamt5 ty rm => Sys2Proof.Machine.execAndImmShift cond sf rn rd shamt5 ty rm s
  | .eorImmShift cond sf rn rd shamt5 ty rm => Sys2Proof.Machine.execEorImmShift cond sf rn rd shamt5 ty rm s
  | .subImmShift cond sf rn rd shamt5 ty rm => Sys2Proof.Machine.execSubImmShift cond sf rn rd shamt5 ty rm s
  | .rsbImmShift cond sf rn rd shamt5 ty rm => Sys2Proof.Machine.execRsbImmShift cond sf rn rd shamt5 ty rm s
  | .addImmShift cond sf rn rd shamt5 ty rm => Sys2Proof.Machine.execAddImmShift cond sf rn rd shamt5 ty rm s
  | .adcImmShift cond sf rn rd shamt5 ty rm => Sys2Proof.Machine.execAdcImmShift cond sf rn rd shamt5 ty rm s
  | .sbcImmShift cond sf rn rd shamt5 ty rm => Sys2Proof.Machine.execSbcImmShift cond sf rn rd shamt5 ty rm s
  | .rscImmShift cond sf rn rd shamt5 ty rm => Sys2Proof.Machine.execRscImmShift cond sf rn rd shamt5 ty rm s
  | .tstImmShift cond rn rd shamt5 ty rm => Sys2Proof.Machine.execTstImmShift cond rn rd shamt5 ty rm s
  | .teqImmShift cond rn rd shamt5 ty rm => Sys2Proof.Machine.execTeqImmShift cond rn rd shamt5 ty rm s
  | .cmpImmShift cond rn rd shamt5 ty rm => Sys2Proof.Machine.execCmpImmShift cond rn rd shamt5 ty rm s
  | .cmnImmShift cond rn rd shamt5 ty rm => Sys2Proof.Machine.execCmnImmShift cond rn rd shamt5 ty rm s
  | .orrImmShift cond sf rn rd shamt5 ty rm => Sys2Proof.Machine.execOrrImmShift cond sf rn rd shamt5 ty rm s
  | .movImmShift cond sf rn rd shamt5 ty rm => Sys2Proof.Machine.execMovImmShift cond sf rn rd shamt5 ty rm s
  | .bicImmShift cond sf rn rd shamt5 ty rm => Sys2Proof.Machine.execBicImmShift cond sf rn rd shamt5 ty rm s
  | .mvnImmShift cond sf rn rd shamt5 ty rm => Sys2Proof.Machine.execMvnImmShift cond sf rn rd shamt5 ty rm s
  | .andRegShift cond sf rn rd rs ty rm => Sys2Proof.Machine.execAndRegShift cond sf rn rd rs ty rm s
  | .eorRegShift cond sf rn rd rs ty rm => Sys2Proof.Machine.execEorRegShift cond sf rn rd rs ty rm s
  | .subRegShift cond sf rn rd rs ty rm => Sys2Proof.Machine.execSubRegShift cond sf rn rd rs ty rm s
  | .rsbRegShift cond sf rn rd rs ty rm => Sys2Proof.Machine.execRsbRegShift cond sf rn rd rs ty rm s
  | .addRegShift cond sf rn rd rs ty rm => Sys2Proof.Machine.execAddRegShift cond sf rn rd rs ty rm s
  | .adcRegShift cond sf rn rd rs ty rm => Sys2Proof.Machine.execAdcRegShift cond sf rn rd rs ty rm s
  | .sbcRegShift cond sf rn rd rs ty rm => Sys2Proof.Machine.execSbcRegShift cond sf rn rd rs ty rm s
  | .rscRegShift cond sf rn rd rs ty rm => Sys2Proof.Machine.execRscRegShift cond sf rn rd rs ty rm s
  | .tstRegShift cond rn rd rs ty rm => Sys2Proof.Machine.execTstRegShift cond rn rd rs ty rm s
  | .teqRegShift cond rn rd rs ty rm => Sys2Proof.Machine.execTeqRegShift cond rn rd rs ty rm s
  | .cmpRegShift cond rn rd rs ty rm => Sys2Proof.Machine.execCmpRegShift cond rn rd rs ty rm s
  | .cmnRegShift cond rn rd rs ty rm => Sys2Proof.Machine.execCmnRegShift cond rn rd rs ty rm s
  | .orrRegShift cond sf rn rd rs ty rm => Sys2Proof.Machine.execOrrRegShift cond sf rn rd rs ty rm s
  | .movRegShift cond sf rn rd rs ty rm => Sys2Proof.Machine.execMovRegShift cond sf rn rd rs ty rm s
  | .bicRegShift cond sf rn rd rs ty rm => Sys2Proof.Machine.execBicRegShift cond sf rn rd rs ty rm s
  | .mvnRegShift cond sf rn rd rs ty rm => Sys2Proof.Machine.execMvnRegShift cond sf rn rd rs ty rm s
  | .swp cond body => Sys2Proof.Machine.execSwp cond body s
  | .mul cond body => Sys2Proof.Machine.execMul cond body s
  | .mull cond body => Sys2Proof.Machine.execMull cond body s
  | .htReg cond body => Sys2Proof.Machine.execHtReg cond body s
  | .htImm cond body => Sys2Proof.Machine.execHtImm cond body s
  | .undefExtension cond body => Sys2Proof.Machine.execUndefExtension cond body s
  | .psrImm cond body => Sys2Proof.Machine.execPsrImm cond body s
  | .andImm cond sf rn rd rot imm8 => Sys2Proof.Machine.execAndImm cond sf rn rd rot imm8 s
  | .eorImm cond sf rn rd rot imm8 => Sys2Proof.Machine.execEorImm cond sf rn rd rot imm8 s
  | .subImm cond sf rn rd rot imm8 => Sys2Proof.Machine.execSubImm cond sf rn rd rot imm8 s
  | .rsbImm cond sf rn rd rot imm8 => Sys2Proof.Machine.execRsbImm cond sf rn rd rot imm8 s
  | .addImm cond sf rn rd rot imm8 => Sys2Proof.Machine.execAddImm cond sf rn rd rot imm8 s
  | .adcImm cond sf rn rd rot imm8 => Sys2Proof.Machine.execAdcImm cond sf rn rd rot imm8 s
  | .sbcImm cond sf rn rd rot imm8 => Sys2Proof.Machine.execSbcImm cond sf rn rd rot imm8 s
  | .rscImm cond sf rn rd rot imm8 => Sys2Proof.Machine.execRscImm cond sf rn rd rot imm8 s
  | .tstImm cond rn rd rot imm8 => Sys2Proof.Machine.execTstImm cond rn rd rot imm8 s
  | .teqImm cond rn rd rot imm8 => Sys2Proof.Machine.execTeqImm cond rn rd rot imm8 s
  | .cmpImm cond rn rd rot imm8 => Sys2Proof.Machine.execCmpImm cond rn rd rot imm8 s
  | .cmnImm cond rn rd rot imm8 => Sys2Proof.Machine.execCmnImm cond rn rd rot imm8 s
  | .orrImm cond sf rn rd rot imm8 => Sys2Proof.Machine.execOrrImm cond sf rn rd rot imm8 s
  | .movImm cond sf rn rd rot imm8 => Sys2Proof.Machine.execMovImm cond sf rn rd rot imm8 s
  | .bicImm cond sf rn rd rot imm8 => Sys2Proof.Machine.execBicImm cond sf rn rd rot imm8 s
  | .mvnImm cond sf rn rd rot imm8 => Sys2Proof.Machine.execMvnImm cond sf rn rd rot imm8 s
  | .sdtImmPost cond body => Sys2Proof.Machine.execSdtImmPost cond body s
  | .sdtImmPre cond body => Sys2Proof.Machine.execSdtImmPre cond body s
  | .sdtRegPost cond body => Sys2Proof.Machine.execSdtRegPost cond body s
  | .undefCat6 cond body => Sys2Proof.Machine.execUndefCat6 cond body s
  | .sdtRegPre cond body => Sys2Proof.Machine.execSdtRegPre cond body s
  | .undefCat7 cond body => Sys2Proof.Machine.execUndefCat7 cond body s
  | .bdtPost cond body => Sys2Proof.Machine.execBdtPost cond body s
  | .bdtPre cond body => Sys2Proof.Machine.execBdtPre cond body s
  | .b cond body => Sys2Proof.Machine.execB cond body s
  | .bl cond body => Sys2Proof.Machine.execBl cond body s
  | .cdtPost cond body => Sys2Proof.Machine.execCdtPost cond body s
  | .cdtPre cond body => Sys2Proof.Machine.execCdtPre cond body s
  | .cdo cond body => Sys2Proof.Machine.execCdo cond body s
  | .crt cond body => Sys2Proof.Machine.execCrt cond body s
  | .swi cond body => Sys2Proof.Machine.execSwi cond body s

end Sys2Proof.Machine
end

