-- ==== Sys2Proof/Machine/Step.lean ====
section
/-! DEFINITION. One step (R110), and the placing of a word where the step fetches it. -/

namespace Sys2Proof.Machine

/-- One step: refuse T = 1, fetch, decode, and run the instruction, its condition gate included (R110, R245). -/
def step (s : State) : Host.Outcome State Fault Refusal :=
  if s.cpsr.t then .refused .thumbState else exec (decodeWord (fetch s)) s

/-- `s` with the instruction whose bits are `w` placed at the pc, and T = 0, without which nothing is fetched (R110). -/
def State.withFetchWord (s : State) (nbits w : Nat) : State :=
  { s with
    code := loadWord s.code s.pc (BitVec.ofNat 32 (w % 2 ^ nbits))
    cpsr := { s.cpsr with t := false } }

end Sys2Proof.Machine
end

