-- ==== Sys2Proof/Safety.lean ====
section
/-! DEFINITION. The terms the claims use: what a word at the pc is, a sound state, a run and its end. -/

namespace Sys2Proof.Machine

/-- TST, TEQ, CMP or CMN: the opcodes that do not write Rd (R190). -/
def isTest (op : Opcode) : Bool :=
  match op with
  | .tst | .teq | .cmp | .cmn => true
  | _ => false

/-- The word at the pc is data processing (R97). -/
def isDpWord (w : Word) : Prop :=
  classify w = .dpImm ∨ classify w = .dpRegImmShift ∨ classify w = .dpRegRegShift

/-- The word is data processing and writes register `i`: its Rd field is `i` and its opcode is none of 8 to 11 (R190). -/
def writesReg (w : Word) (i : RegIdx) : Prop :=
  isDpWord w ∧ rdField w = i ∧ isTest (.ofBits (opcodeBits w)) = false

/-- The word returns from exception: it writes register 15 with S = 1 (R132, R247). -/
def isExceptionReturn (w : Word) : Prop := writesReg w 15 ∧ sBit w = true

/-- The pc is aligned for the mode: a multiple of 4 in ARM state (R25), a multiple of 2 in T = 1 (R132, R210); and the code
store is in canonical form. -/
def Sound (s : State) : Prop :=
  (if s.cpsr.t then s.pc.toNat % 2 = 0 else s.pc.toNat % 4 = 0) ∧ s.code.wf

/-- `k` steps, as far as they retire (R14, R60). -/
def runSteps : Nat → State → Result
  | 0, s => .next s
  | k + 1, s =>
    match step s with
    | .next s' => runSteps k s'
    | .fault f => .fault f
    | .refused r => .refused r

/-- How a run ends (R268): at a stop address, by the outcome of a step that did not retire, or not within the steps given. -/
inductive RunEnd where
  | stopAddress (s : State)
  | fault (f : Fault) (s : State)
  | refusal (r : Refusal) (s : State)
  | stillRunning (s : State)
  deriving DecidableEq, Repr

/-- Run for at most `k` steps; the run is over when the pc equals the stop address at the start of a step (R268). -/
def runUntil (stop : Word) : Nat → State → RunEnd
  | k, s =>
    if s.pc = stop then .stopAddress s
    else match k with
      | 0 => .stillRunning s
      | k + 1 =>
        match step s with
        | .next s' => runUntil stop k s'
        | .fault f => .fault f s
        | .refused r => .refusal r s

end Sys2Proof.Machine
end

