-- ==== Sys2Proof/Certificates/Slice0/Obligations.lean ====
section
/-! DEFINITION. The statements for the provers. Each says which rule of the spec it formalises; the helper definitions at the
head write the rules' formulas again, apart from the machine's own operations. -/

namespace Sys2Proof.Claims

open Sys2Proof.Machine

/-- A bit as a word. -/
def bit (b : Bool) : Word := if b then 1 else 0

/-- A signed sum lies outside -2^31 to 2^31-1 (R172, R173). -/
def overflows (x : Int) : Bool := decide (x < -2 ^ 31 ∨ 2 ^ 31 ≤ x)

/-- N and Z from the result (R171). -/
def nzFlags (r : Word) (f : Status) : Status := { f with n := r.getLsbD 31, z := decide (r = 0) }

/-- `a + b + c` on words. -/
def sum (a b : Word) (c : Bool) : Word := a + b + bit c

/-- `a − b − (1 − c)` on words. -/
def difference (a b : Word) (c : Bool) : Word := a - b - bit (!c)

/-- The flags of an addition (R171, R172). -/
def sumFlags (a b : Word) (c : Bool) (f : Status) : Status :=
  { nzFlags (sum a b c) f with
    c := decide (2 ^ 32 ≤ a.toNat + b.toNat + c.toNat)
    v := overflows (a.toInt + b.toInt + c.toNat) }

/-- The flags of a subtraction: C is "no borrow" (R171, R173). -/
def differenceFlags (a b : Word) (c : Bool) (f : Status) : Status :=
  { nzFlags (difference a b c) f with
    c := decide (b.toNat + (!c).toNat ≤ a.toNat)
    v := overflows (a.toInt - b.toInt - (!c).toNat) }

/-- The flags of a logical opcode: N, Z, and C only from an immediate with non-zero rotation (R141, R156, R192). -/
def logicalFlags (r : Word) (o : Operand2) (s : State) : Status :=
  { nzFlags r s.cpsr with
    c := match o with
      | .imm rot _ => if rot = 0 then s.cpsr.c else (operand2 o true s).value.getLsbD 31
      | _ => s.cpsr.c }

/-- The state after an instruction that writes `v` to register `rd`, with flags `f` when S = 1 (R24, R131, R132, R193). -/
def written (sf : Bool) (rd : RegIdx) (v : Word) (f : Status) (s : State) : State :=
  if h : rd.val < 15 then
    { s with regs := s.regs.set rd.val v h, pc := s.pc + 4, cpsr := if sf then f else s.cpsr }
  else if sf then
    { s with pc := v &&& (if s.spsr.t then 0xFFFFFFFE else 0xFFFFFFFC), cpsr := s.spsr }
  else { s with pc := v &&& 0xFFFFFFFC }

/-- The state after an instruction that only sets flags (R24, R190). -/
def flagged (f : Status) (s : State) : State := { s with pc := s.pc + 4, cpsr := f }

/-- The eight opcodes whose C comes from the operand path only (R192). -/
def isLogical (op : Opcode) : Bool :=
  match op with
  | .and | .eor | .tst | .teq | .orr | .mov | .bic | .mvn => true
  | _ => false

/-- The first `n` steps of the run from `s` begin, none of them at the stop address. -/
def NotYetAt (stop : Word) (n : Nat) (s : State) : Prop :=
  ∀ j < n, ∃ u, runSteps j s = .next u ∧ u.pc ≠ stop

/-- An outcome with its next state, if any, changed by `g`. -/
def mapNext (g : State → State) (r : Result) : Result :=
  match r with
  | .next s => .next (g s)
  | .fault f => .fault f
  | .refused q => .refused q

end Sys2Proof.Claims

open Sys2Proof Sys2Proof.Machine Sys2Proof.Claims

/-! ### Encoding and decoding -/

/-- The encoder and the decoder agree on every well-formed instruction of every row (R72 to R75, R97). The field positions are
the spec's GK1 (log entry 12). -/
def Obligations.DecodeOfEncodeIsTheInstruction : Prop :=
  ∀ i : Instr, i.WellFormed → decodeWord (encode i) = i

/-- Every word decodes to a well-formed instruction, and encoding it gives the word back: no bit is dropped (R97). The field
positions are the spec's GK1 (log entry 12). -/
def Obligations.EncodeOfDecodeIsTheWord : Prop :=
  ∀ w : Word, (decodeWord w).WellFormed ∧ encode (decodeWord w) = w

/-- First-match decoding with the opcode table, the decode tree and the decoder give every word the same row and class (R102).
The tree holds the spec's decisions D6, D7 and D8 (log entry 13). -/
def Obligations.OpcodeTableAgreesWithDecodeTree : Prop :=
  ∀ w : Word, ∃ r, firstRow (bodyBits w) = some r ∧ r.cls = classify w ∧ r.order = (decodeWord w).row

/-- The class `UNDEFINED` is exactly the two sets of words of rule R98. That the extension-space words with bits 6:5 = 00 and
bits 23:22 = 01 are not among them is the flat reading of the guards, the spec's decision D8 (log entry 13). -/
def Obligations.UndefinedWordsAreExactlyThese : Prop :=
  ∀ w : Word, classify w = .undefined ↔
    (catBits w = 0 ∨ catBits w = 1) ∧ w.getLsbD 7 = true ∧ w.getLsbD 4 = true ∧ w.getLsbD 22 = false ∧
        typeBits w ≠ 0 ∧ w.extractLsb' 8 4 ≠ 0 ∨
      (catBits w = 6 ∨ catBits w = 7) ∧ w.getLsbD 4 = true

/-- The PSR-transfer words: opcode 8 to 11 with S = 0, in category 0x1 outside the extension space and the BX pattern, and in
category 0x3 (R89). The test on opcode and S is the spec's decision D6. -/
def Obligations.PsrTransferWordsAreExactlyThese : Prop :=
  ∀ w : Word,
    (classify w = .hook .psrReg ↔
      catBits w = 1 ∧ (w.getLsbD 4 = false ∨ w.getLsbD 7 = false) ∧ (opcodeBits w).extractLsb' 2 2 = 2 ∧ sBit w = false ∧
        ¬ w &&& 0x0FFFFFF0 = 0x012FFF10) ∧
    (classify w = .hook .psrImm ↔ catBits w = 3 ∧ (opcodeBits w).extractLsb' 2 2 = 2 ∧ sBit w = false)

/-- The class depends only on w[27:20], on whether w[19:8] = 0xFFF, and on w[11:4] (R97). The tree holds the spec's decisions
D6, D7 and D8 (log entry 13). -/
def Obligations.ClassDependsOnlyOnTheKeyBits : Prop :=
  ∀ w w' : Word, w.extractLsb' 20 8 = w'.extractLsb' 20 8 → w.extractLsb' 4 8 = w'.extractLsb' 4 8 →
    (w.extractLsb' 8 12 = 0xFFF ↔ w'.extractLsb' 8 12 = 0xFFF) → classify w = classify w'

/-- The words the spec writes out decode to the instructions it says they are (R79, R102 and 95_test_vectors.md section 2.3; the
RRX word stands in its section 3.3, the `SUBS pc` word in 5.1 and the `SWIEQ` word in 5.3). The field positions are the spec's
GK1 (log entry 12). That 0xE16F0F11 is `PSR_REG` is its decision D6 and that 0xE0410392 is `HT_IMM` its D8 (log entry 13). -/
def Obligations.SpecWordsDecode : Prop :=
  decodeWord 0xE2800001 = .addImm .al false 0 0 0 1 ∧
  decodeWord 0xE0810312 = .addRegShift .al false 1 0 3 .lsl 2 ∧
  decodeWord 0xE1B00062 = .movImmShift .al true 0 0 0 .ror 2 ∧
  decodeWord 0xE25EF004 = .subImm .al true 14 15 0 4 ∧
  decodeWord 0xE12FFF12 = .bx .al 2 ∧
  decodeWord 0xE16F0F11 = .psrRegBit4Set .al 0x16F0F11 ∧
  decodeWord 0x0F000011 = .swi .eq 0xF000011 ∧
  decodeWord 0xE0410392 = .htImm .al 0x0410392 ∧
  decodeWord 0xE01101B2 = .undefExtension .al 0x01101B2

/-! ### The step -/

/-- The fetched word is made of the four bytes at the pc, the lowest address least significant, addresses modulo 2^32 (R52,
R54). The wrap, met from pc 0xFFFFFFFD on, is the spec's decision D2 (log entry 13). -/
def Obligations.FetchIsLittleEndian : Prop :=
  ∀ s : State, ∀ k < 4, (fetch s).extractLsb' (8 * k) 8 = readByte s.code (s.pc + BitVec.ofNat 32 k)

/-- When T = 0 and the four bytes at the pc decode to an instruction, the step runs that instruction and adds nothing
around it (R110). -/
def Obligations.StepRunsTheDecodedInstruction : Prop :=
  ∀ (s : State) (i : Instr) (rest : List Byte), s.cpsr.t = false →
    decode [readByte s.code s.pc, readByte s.code (s.pc + 1), readByte s.code (s.pc + 2), readByte s.code (s.pc + 3)]
      = .ok (i, rest) →
    step s = exec i s

/-- A word placed where the step fetches is the word the next step runs. -/
def Obligations.PlacedWordIsTheNextStep : Prop :=
  ∀ (s : State) (w : Nat), s.code.wf →
    step (s.withFetchWord 32 w) = exec (decodeWord (BitVec.ofNat 32 w)) (s.withFetchWord 32 w)

/-- A step is refused for Thumb state exactly when it begins with T = 1 (R110, R245). The refusal is the spec's decision D10.
-/
def Obligations.ThumbRefusalExactlyWhenModeSet : Prop :=
  ∀ s : State, step s = .refused .thumbState ↔ s.cpsr.t = true

/-- A word whose condition fails, whatever the rest of the word is, changes the pc and nothing else (R111). The advance of the
pc by 4 is the spec's decision D1 (R24). -/
def Obligations.FailingConditionSkipsAnyWord : Prop :=
  ∀ s : State, s.cpsr.t = false → condPass (.ofBits ((fetch s).extractLsb' 28 4)) s.cpsr = false →
    step s = .next { s with pc := s.pc + 4 }

/-- Every instruction of every row, hooks and undefined words too, retires and only advances the pc when its condition fails
(R111). The advance of the pc by 4 is the spec's decision D1 (R24). -/
def Obligations.EveryRowRetiresWhenItsConditionFails : Prop :=
  ∀ (i : Instr) (s : State), condPass i.cond s.cpsr = false → exec i s = .next { s with pc := s.pc + 4 }

/-- With a passing condition exactly one of the outcomes of rule R117 happens, by the class of the word: a data-processing
word or BX retires, a hook class K gives `Hook(K, w)`, `UNDEFINED` gives `Undefined(w)` (R117, R118). A hook as a refusal is
the spec's decision D11 and an undefined word as a fault its D12 (log entry 10); that BX retires is its D9 (log entry 13). -/
def Obligations.StepOutcomeIsDecidedByTheClass : Prop :=
  ∀ s : State, s.cpsr.t = false → condPass (.ofBits ((fetch s).extractLsb' 28 4)) s.cpsr = true →
    (isDpWord (fetch s) ∨ classify (fetch s) = .bx → ∃ t, step s = .next t) ∧
    (∀ k, classify (fetch s) = .hook k → step s = .refused (.hook k (fetch s))) ∧
    (classify (fetch s) = .undefined → step s = .fault (.undefined (fetch s)))

/-- A well-formed instruction of a hook row (PSR_REG with bit 4 clear or set, PSR_IMM, MUL, MULL, SWP, HT_REG, HT_IMM, the
four SDT rows, BDT_POST, BDT_PRE, B, BL, CDT_POST, CDT_PRE, CDO, CRT, SWI) whose condition passes stops with `Hook(K, w)`, K
its class and w its word (R211). That a hook ends what the model can say is the spec's decision D11 (log entry 10). -/
def Obligations.HookRowsStopWithClassAndWord : Prop :=
  ∀ (i : Instr) (k : HookClass) (s : State), i.WellFormed → classify (encode i) = .hook k →
    condPass i.cond s.cpsr = true → exec i s = .refused (.hook k (encode i))

/-- A well-formed instruction of one of the three `UNDEFINED` rows whose condition passes stops with `Undefined(w)` (R240).
That the outcome is a fault is the spec's decision D12 (log entry 10). -/
def Obligations.UndefinedRowsStopWithTheWord : Prop :=
  ∀ (i : Instr) (s : State), i.WellFormed → classify (encode i) = .undefined →
    condPass i.cond s.cpsr = true → exec i s = .fault (.undefined (encode i))

/-! ### The condition evaluator -/

/-- The predicate of each of the sixteen condition codes, by its number (R114: the predicates are the spec's GK2; code 15 is the
parameter `NV_EXECUTES`, the spec's decision D3 in R115). -/
def Obligations.ConditionTable : Prop :=
  ∀ f : Status,
    (List.range 16).map (fun k => condPass (.ofBits (BitVec.ofNat 4 k)) f) =
      [f.z, !f.z, f.c, !f.c, f.n, !f.n, f.v, !f.v, f.c && !f.z, !f.c || f.z, f.n == f.v, f.n != f.v, !f.z && (f.n == f.v),
        f.z || (f.n != f.v), true, Config.nvExecutes] ∧
    Config.nvExecutes = false ∧ ∀ nv, condPassWith nv .nv f = nv

/-- The seven pairs of condition codes are complements in every flag state, AL passes and code 15 does not (R115, R116). The
predicates are the spec's GK2 (log entry 12) and code 15 its D3 (log entry 8). -/
def Obligations.ConditionPairsAreComplements : Prop :=
  ∀ f : Status, (∀ k < 7, condPass (.ofBits (BitVec.ofNat 4 (2 * k))) f = !condPass (.ofBits (BitVec.ofNat 4 (2 * k + 1))) f) ∧
    condPass (.ofBits 14) f = true ∧ condPass (.ofBits 15) f = false

/-- After a `CMP` that runs, in every operand form, the conditions read the order of its operands as the meaning column of rule
R114 says: equality, unsigned order, signed order (R114, R184). The predicates are the spec's GK2 and the overflow formula its GK3
(log entry 12). -/
def Obligations.CompareThenConditionsReadTheOrder : Prop :=
  ∀ (c : Cond) (sf : Bool) (rn rd : RegIdx) (o : Operand2) (s : State), condPass c s.cpsr = true →
    let a := regRead rn s
    let b := (operand2 o true s).value
    ∃ t, exec (.dp .cmp c sf rn rd o) s = .next t ∧
      (condPass .eq t.cpsr = true ↔ a = b) ∧ (condPass .ne t.cpsr = true ↔ a ≠ b) ∧
      (condPass .cs t.cpsr = true ↔ b.toNat ≤ a.toNat) ∧ (condPass .cc t.cpsr = true ↔ a.toNat < b.toNat) ∧
      (condPass .hi t.cpsr = true ↔ b.toNat < a.toNat) ∧ (condPass .ls t.cpsr = true ↔ a.toNat ≤ b.toNat) ∧
      (condPass .ge t.cpsr = true ↔ b.toInt ≤ a.toInt) ∧ (condPass .lt t.cpsr = true ↔ a.toInt < b.toInt) ∧
      (condPass .gt t.cpsr = true ↔ b.toInt < a.toInt) ∧ (condPass .le t.cpsr = true ↔ a.toInt ≤ b.toInt)

/-! ### The second operand -/

/-- The immediate operand is imm8 rotated right by twice rot, and with S = 1 and rot ≠ 0 it yields as carry the bit at position
(rotation − 1) of the unrotated immediate (R140, R141). -/
def Obligations.ImmediateOperandValueAndCarry : Prop :=
  ∀ (rot : BitVec 4) (imm8 : Byte) (sf : Bool) (s : State),
    let op2 := operand2 (.imm rot imm8) sf s
    (∀ k < 32, op2.value.getLsbD k = (imm8.zeroExtend 32).getLsbD ((k + 2 * rot.toNat) % 32)) ∧
    op2.carry = if sf = true ∧ rot ≠ 0 then some ((imm8.zeroExtend 32).getLsbD (2 * rot.toNat - 1)) else none

/-- Shifts by an immediate amount, amount 0 included: LSR #0 and ASR #0 shift by 32, ROR #0 is RRX with the carry the step
began with (R145 to R148, R151); the value is the same for either S. That S = 1 gives the same value is R157, the spec's
decision D5 (conflict C1, log entry 13). -/
def Obligations.ImmediateShiftValue : Prop :=
  ∀ (n : BitVec 5) (rm : RegIdx) (sf : Bool) (s : State),
    let m := regRead rm s
    let amount := if n = 0 then 32 else n.toNat
    (operand2 (.immShift n .lsl rm) sf s).value.toNat = m.toNat * 2 ^ n.toNat % 2 ^ 32 ∧
    (operand2 (.immShift n .lsr rm) sf s).value.toNat = m.toNat / 2 ^ amount ∧
    (operand2 (.immShift n .asr rm) sf s).value.toInt = m.toInt / 2 ^ amount ∧
    (n ≠ 0 → ∀ k < 32, (operand2 (.immShift n .ror rm) sf s).value.getLsbD k = m.getLsbD ((k + n.toNat) % 32)) ∧
    (n = 0 → (operand2 (.immShift n .ror rm) sf s).value.toNat = s.cpsr.c.toNat * 2 ^ 31 + m.toNat / 2)

/-- LSL, LSR and ASR by a register amount: the amount is the low byte of Rs, read like any register (R150); LSL and LSR by 32
or more give 0 and ASR fills with the sign (R152 to R154); the value is the same for either S. That S = 1 gives the same value
is R157, the spec's decision D5 (conflict C1, log entry 13). -/
def Obligations.RegisterShiftValue : Prop :=
  ∀ (rs rm : RegIdx) (sf : Bool) (s : State),
    let m := regRead rm s
    let a := (regRead rs s).toNat % 256
    (operand2 (.regShift rs .lsl rm) sf s).value.toNat = m.toNat * 2 ^ a % 2 ^ 32 ∧
    (operand2 (.regShift rs .lsr rm) sf s).value.toNat = m.toNat / 2 ^ a ∧
    (operand2 (.regShift rs .asr rm) sf s).value.toInt = m.toInt / 2 ^ a

/-- ROR by a register amount: by the amount modulo 32, and 0 when that is 0; with `ROR_REG_ZERO_QUIRK` false it would be the
operand (R155; keeping the quirk is the spec's decision D17). That S = 1 gives the same value is R157, the spec's decision D5
(conflict C1, log entry 13). -/
def Obligations.RotateByRegisterValue : Prop :=
  ∀ (rs rm : RegIdx) (sf : Bool) (s : State),
    let m := regRead rm s
    let a := (regRead rs s).toNat % 256
    (a % 32 = 0 → (operand2 (.regShift rs .ror rm) sf s).value = 0) ∧
    (a % 32 ≠ 0 → ∀ k < 32, (operand2 (.regShift rs .ror rm) sf s).value.getLsbD k = m.getLsbD ((k + a) % 32)) ∧
    (a % 32 = 0 → shiftRegWith false .ror a m = m)

/-- The register-operand forms have no carry-out, for any type, amount and S (R156; the normative value of
`SHIFTER_CARRY_REGFORM` is the spec's decision D5). -/
def Obligations.RegisterFormsHaveNoCarryOut : Prop :=
  ∀ (n : BitVec 5) (ty : ShiftType) (rs rm : RegIdx) (sf : Bool) (s : State),
    (operand2 (.immShift n ty rm) sf s).carry = none ∧ (operand2 (.regShift rs ty rm) sf s).carry = none

/-! ### Data processing: result, flags, frame and completion -/

/-- AND, EOR, ORR and BIC in all three operand forms, every Rd, S = 0 and S = 1: the whole next state (R174, R175, R186,
R188). The advance of the pc by 4 is the spec's decision D1 (R24). The value under S = 1 and the missing shifter carry of the
register-operand forms are the spec's decision D5 (conflict C1, log entry 13). -/
def Obligations.BitwiseOpcodesResult : Prop :=
  ∀ (c : Cond) (sf : Bool) (rn rd : RegIdx) (o : Operand2) (s : State), condPass c s.cpsr = true →
    let a := regRead rn s
    let b := (operand2 o sf s).value
    exec (.dp .and c sf rn rd o) s = .next (written sf rd (a &&& b) (logicalFlags (a &&& b) o s) s) ∧
    exec (.dp .eor c sf rn rd o) s = .next (written sf rd (a ^^^ b) (logicalFlags (a ^^^ b) o s) s) ∧
    exec (.dp .orr c sf rn rd o) s = .next (written sf rd (a ||| b) (logicalFlags (a ||| b) o s) s) ∧
    exec (.dp .bic c sf rn rd o) s = .next (written sf rd (a &&& ~~~b) (logicalFlags (a &&& ~~~b) o s) s)

/-- MOV and MVN in all three operand forms: the whole next state, the same for every Rn (R187, R189). The advance of the pc by
4 is the spec's decision D1 (R24). The value under S = 1 and the missing shifter carry of the register-operand forms are the
spec's decision D5 (conflict C1, log entry 13). -/
def Obligations.MoveOpcodesResult : Prop :=
  ∀ (c : Cond) (sf : Bool) (rn rd : RegIdx) (o : Operand2) (s : State), condPass c s.cpsr = true →
    let b := (operand2 o sf s).value
    exec (.dp .mov c sf rn rd o) s = .next (written sf rd b (logicalFlags b o s) s) ∧
    exec (.dp .mvn c sf rn rd o) s = .next (written sf rd (~~~b) (logicalFlags (~~~b) o s) s)

/-- ADD and ADC in all three operand forms: the whole next state, ADC with the carry the step began with (R178, R179). The
advance of the pc by 4 is the spec's decision D1 (R24). The carry and overflow formulas are the spec's GK3. The carry in from
before the instruction, not the one a rotated immediate yields, is the spec's decision D4 (log entry 13). The value under S =
1 and the missing shifter carry of the register-operand forms are the spec's decision D5 (conflict C1, log entry 13). -/
def Obligations.AdditionOpcodesResult : Prop :=
  ∀ (c : Cond) (sf : Bool) (rn rd : RegIdx) (o : Operand2) (s : State), condPass c s.cpsr = true →
    let a := regRead rn s
    let b := (operand2 o sf s).value
    let cin := s.cpsr.c
    exec (.dp .add c sf rn rd o) s = .next (written sf rd (sum a b false) (sumFlags a b false s.cpsr) s) ∧
    exec (.dp .adc c sf rn rd o) s = .next (written sf rd (sum a b cin) (sumFlags a b cin s.cpsr) s)

/-- SUB, RSB, SBC and RSC in all three operand forms: the whole next state; C is "no borrow" (R176, R177, R180, R181). The
advance of the pc by 4 is the spec's decision D1 (R24). The overflow and with-carry formulas are the spec's GK3. The carry in
from before the instruction, not the one a rotated immediate yields, is the spec's decision D4 (log entry 13). The value under
S = 1 and the missing shifter carry of the register-operand forms are the spec's decision D5 (conflict C1, log entry 13). -/
def Obligations.SubtractionOpcodesResult : Prop :=
  ∀ (c : Cond) (sf : Bool) (rn rd : RegIdx) (o : Operand2) (s : State), condPass c s.cpsr = true →
    let a := regRead rn s
    let b := (operand2 o sf s).value
    let cin := s.cpsr.c
    exec (.dp .sub c sf rn rd o) s = .next (written sf rd (difference a b true) (differenceFlags a b true s.cpsr) s) ∧
    exec (.dp .rsb c sf rn rd o) s = .next (written sf rd (difference b a true) (differenceFlags b a true s.cpsr) s) ∧
    exec (.dp .sbc c sf rn rd o) s = .next (written sf rd (difference a b cin) (differenceFlags a b cin s.cpsr) s) ∧
    exec (.dp .rsc c sf rn rd o) s = .next (written sf rd (difference b a cin) (differenceFlags b a cin s.cpsr) s)

/-- TST and TEQ in all three operand forms, every Rd field: only the flags and the pc change (R182, R183, R190). The advance
of the pc by 4 is the spec's decision D1 (R24). The value under S = 1 and the missing shifter carry of the register-operand
forms are the spec's decision D5 (conflict C1, log entry 13). -/
def Obligations.BitTestOpcodesResult : Prop :=
  ∀ (c : Cond) (sf : Bool) (rn rd : RegIdx) (o : Operand2) (s : State), condPass c s.cpsr = true →
    let a := regRead rn s
    let b := (operand2 o true s).value
    exec (.dp .tst c sf rn rd o) s = .next (flagged (logicalFlags (a &&& b) o s) s) ∧
    exec (.dp .teq c sf rn rd o) s = .next (flagged (logicalFlags (a ^^^ b) o s) s)

/-- CMP and CMN in all three operand forms, every Rd field: only the flags and the pc change (R184, R185, R190). The advance
of the pc by 4 is the spec's decision D1 (R24). The carry and overflow formulas are the spec's GK3 (log entry 12). The value
under S = 1 and the missing shifter carry of the register-operand forms are the spec's decision D5 (conflict C1, log entry
13). -/
def Obligations.CompareOpcodesResult : Prop :=
  ∀ (c : Cond) (sf : Bool) (rn rd : RegIdx) (o : Operand2) (s : State), condPass c s.cpsr = true →
    let a := regRead rn s
    let b := (operand2 o true s).value
    exec (.dp .cmp c sf rn rd o) s = .next (flagged (differenceFlags a b true s.cpsr) s) ∧
    exec (.dp .cmn c sf rn rd o) s = .next (flagged (sumFlags a b false s.cpsr) s)

/-- The frame of the sixteen opcodes in all three operand forms: the saved set and every byte of the code store stay; every
register but the Rd of a writing opcode stays; T changes only by the return from exception; with S = 0 a writing opcode leaves
all five status bits; short of a return from exception a logical opcode leaves V, and C too in the register-operand forms
(R22, R30 to R33, R56, R156, R171, R192). The value under S = 1 and the missing shifter carry of the register-operand forms
are the spec's decision D5 (conflict C1, log entry 13). -/
def Obligations.DataProcessingFrame : Prop :=
  ∀ (op : Opcode) (c : Cond) (sf : Bool) (rn rd : RegIdx) (o : Operand2) (s t : State),
    exec (.dp op c sf rn rd o) s = .next t →
    let returns := isTest op = false ∧ sf = true ∧ rd = 15 ∧ condPass c s.cpsr = true
    t.spsr = s.spsr ∧ (∀ a : Word, readByte t.code a = readByte s.code a) ∧
    (∀ (j : Nat) (h : j < 15), (j ≠ rd.val ∨ isTest op = true) → t.regs[j] = s.regs[j]) ∧
    (¬ returns → t.cpsr.t = s.cpsr.t) ∧
    (isTest op = false → sf = false → t.cpsr = s.cpsr) ∧
    (isLogical op = true → ¬ returns → t.cpsr.v = s.cpsr.v ∧ ((∀ rot imm8, o ≠ .imm rot imm8) → t.cpsr.c = s.cpsr.c))

/-- The shifted value does not depend on S: the two variants of a writing opcode leave the same value in Rd and the same pc, for
the register-operand forms and the immediate form (R140, R157); with S = 0 no flag changes (R171). -/
def Obligations.ResultDoesNotDependOnS : Prop :=
  ∀ (op : Opcode) (c : Cond) (rn rd : RegIdx) (o : Operand2) (s : State), isTest op = false → rd.val < 15 →
    condPass c s.cpsr = true →
    ∃ t t', exec (.dp op c false rn rd o) s = .next t ∧ exec (.dp op c true rn rd o) s = .next t' ∧
      t'.regs = t.regs ∧ t'.pc = t.pc ∧ t.cpsr = s.cpsr

/-- The return from exception: each of the twelve writing opcodes with S = 1 and Rd = 15 copies the saved status set, T included,
into the current one and branches to the value the same instruction leaves in any other Rd, masked for the restored T; the saved
set, the registers and the code store stay (R132, R193, R247). -/
def Obligations.ExceptionReturnRestoresStatusAndBranches : Prop :=
  ∀ (op : Opcode) (c : Cond) (rn : RegIdx) (o : Operand2) (s : State), isTest op = false → condPass c s.cpsr = true →
    ∃ v : Word,
      (∀ (rd : RegIdx) (h : rd.val < 15), ∃ t, exec (.dp op c true rn rd o) s = .next t ∧ t.regs[rd.val] = v) ∧
      exec (.dp op c true rn 15 o) s =
        .next { s with cpsr := s.spsr, pc := v &&& (if s.spsr.t then 0xFFFFFFFE else 0xFFFFFFFC) }

/-- `WriteReg` to register 15: each of the twelve writing opcodes with S = 0 and Rd = 15 branches to the value the same instruction
leaves in any other Rd, bits 1 and 0 cleared whatever T is, and changes nothing else (R131, R135, R193). -/
def Obligations.PcWriteWithoutSIsAPlainBranch : Prop :=
  ∀ (op : Opcode) (c : Cond) (rn : RegIdx) (o : Operand2) (s : State), isTest op = false → condPass c s.cpsr = true →
    ∃ v : Word,
      (∀ (rd : RegIdx) (h : rd.val < 15), ∃ t, exec (.dp op c false rn rd o) s = .next t ∧ t.regs[rd.val] = v) ∧
      exec (.dp op c false rn 15 o) s = .next { s with pc := v &&& 0xFFFFFFFC }

/-- A read of register 15 gives the pc plus 4 in every operand position, Rn, Rm, Rs and the Rm of BX: naming register 15 and
naming a register that holds the pc plus 4 come to the same (R130, R134). That BX reads its Rm this way is the spec's decision
D9 (R210, log entry 13), and the offset 4 its D16 (log entry 8). -/
def Obligations.EveryOperandPositionReadsPcPlusFour : Prop :=
  ∀ (r : RegIdx) (hr : r.val < 15) (s : State), s.regs[r.val] = s.pc + 4 →
    ∀ (op : Opcode) (c : Cond) (sf : Bool) (rn rd rs rm : RegIdx) (n : BitVec 5) (ty : ShiftType) (o : Operand2),
      exec (.dp op c sf 15 rd o) s = exec (.dp op c sf r rd o) s ∧
      exec (.dp op c sf rn rd (.immShift n ty 15)) s = exec (.dp op c sf rn rd (.immShift n ty r)) s ∧
      exec (.dp op c sf rn rd (.regShift rs ty 15)) s = exec (.dp op c sf rn rd (.regShift rs ty r)) s ∧
      exec (.dp op c sf rn rd (.regShift 15 ty rm)) s = exec (.dp op c sf rn rd (.regShift r ty rm)) s ∧
      exec (.bx c 15) s = exec (.bx c r) s

/-- `ADD pc, pc, #imm` branches relative to the address of the next instruction (R136). -/
def Obligations.AddImmediateToPcBranchesRelative : Prop :=
  ∀ (c : Cond) (imm8 : Byte) (s : State), condPass c s.cpsr = true →
    exec (.addImm c false 15 15 0 imm8) s = .next { s with pc := (s.pc + 4 + imm8.zeroExtend 32) &&& 0xFFFFFFFC }

/-- The fields the decoder does not examine have no effect: Rn of MOV and MVN, Rd of TST, TEQ, CMP and CMN (R100, R190). -/
def Obligations.IgnoredFieldsHaveNoEffect : Prop :=
  ∀ (c : Cond) (sf : Bool) (r r' rn rd : RegIdx) (o : Operand2) (s : State),
    exec (.dp .mov c sf r rd o) s = exec (.dp .mov c sf r' rd o) s ∧
    exec (.dp .mvn c sf r rd o) s = exec (.dp .mvn c sf r' rd o) s ∧
    ∀ op, isTest op = true → exec (.dp op c sf rn r o) s = exec (.dp op c sf rn r' o) s

/-- Equal register indices compute from the old value: `ADD r, r, r` doubles, `SUB r, r, r` clears, `MOV r, r, LSL r` shifts
by its own low byte (R194). The advance of the pc by 4 is the spec's decision D1 (R24). -/
def Obligations.EqualIndicesComputeFromTheOldValue : Prop :=
  ∀ (c : Cond) (r : RegIdx) (h : r.val < 15) (s : State), condPass c s.cpsr = true →
    let x := s.regs[r.val]
    exec (.addImmShift c false r r 0 .lsl r) s = .next { s with regs := s.regs.set r.val (x + x) h, pc := s.pc + 4 } ∧
    exec (.subImmShift c false r r 0 .lsl r) s = .next { s with regs := s.regs.set r.val 0 h, pc := s.pc + 4 } ∧
    exec (.movRegShift c false 0 r r .lsl r) s =
      .next { s with regs := s.regs.set r.val (BitVec.ofNat 32 (x.toNat * 2 ^ (x.toNat % 256))) h, pc := s.pc + 4 }

/-! ### Branch and exchange -/

/-- BX: T from bit 0 of the register, the pc the register's value with bit 0 cleared when it was 1 and bits 1 and 0 cleared
otherwise; N, Z, C, V, the registers, the saved set and the code store stay (R210). That the block executes BX this way is the
spec's decision D9. -/
def Obligations.BranchExchangeResult : Prop :=
  ∀ (c : Cond) (rm : RegIdx) (s : State), condPass c s.cpsr = true →
    let v := regRead rm s
    exec (.bx c rm) s =
      .next { s with
        pc := if v.toNat % 2 = 1 then v - 1 else BitVec.ofNat 32 (v.toNat / 4 * 4)
        cpsr := { s.cpsr with t := decide (v.toNat % 2 = 1) } }

/-! ### Rules of the whole machine -/

/-- The only way a register r0 to r14 changes in a step: the word at the pc is data processing, not a test, its condition passes,
and the register is its Rd (R22, R190). -/
def Obligations.OnlyRdOfADataProcessingWordChanges : Prop :=
  ∀ (s t : State) (j : Nat) (h : j < 15), step s = .next t → t.regs[j] ≠ s.regs[j] →
    writesReg (fetch s) ⟨j, Nat.lt_succ_of_lt h⟩ ∧ condPass (.ofBits (condBits (fetch s))) s.cpsr = true

/-- The flags N, Z, C, V change only in a data-processing word with S = 1 (R28 to R31, R171). -/
def Obligations.FlagsChangeOnlyUnderS : Prop :=
  ∀ s t : State, step s = .next t → { t.cpsr with t := s.cpsr.t } ≠ s.cpsr →
    isDpWord (fetch s) ∧ sBit (fetch s) = true ∧ condPass (.ofBits (condBits (fetch s))) s.cpsr = true

/-- The mode flag T changes only by BX and by a return from exception (R32). That BX is executed is the spec's decision D9
(log entry 13). -/
def Obligations.ModeChangesOnlyByBxOrReturn : Prop :=
  ∀ s t : State, step s = .next t → t.cpsr.t ≠ s.cpsr.t →
    classify (fetch s) = .bx ∨ isExceptionReturn (fetch s)

/-- The pc leaves the sequence only by BX and by a write to register 15 (R24, R135). The advance by 4 is the spec's decision
D1 and the execution of BX its D9 (log entry 13). -/
def Obligations.PcAdvancesUnlessBxOrPcWrite : Prop :=
  ∀ s t : State, step s = .next t → t.pc ≠ s.pc + 4 →
    classify (fetch s) = .bx ∨ writesReg (fetch s) 15

/-- No run changes the saved status set or the code store (R33, R56, R62). They are the spec's decisions D20 and D15 (log
entries 13 and 15). -/
def Obligations.NoRunChangesSavedStatusOrCode : Prop :=
  ∀ (k : Nat) (s t : State), runSteps k s = .next t → t.spsr = s.spsr ∧ t.code = s.code

/-- The steps that stop are exactly the events of rule R241, each with what it records. The refusal of T = 1 is the spec's
decision D10 (log entry 9), a hook as a refusal its D11 and an undefined word as a fault its D12 (log entry 10). -/
def Obligations.StopsAreExactlyTheListedEvents : Prop :=
  ∀ s : State,
    (∀ f, step s = .fault f ↔
      s.cpsr.t = false ∧ condPass (.ofBits (condBits (fetch s))) s.cpsr = true ∧ classify (fetch s) = .undefined ∧
        f = .undefined (fetch s)) ∧
    (∀ r, step s = .refused r ↔
      (s.cpsr.t = true ∧ r = .thumbState) ∨
      (s.cpsr.t = false ∧ condPass (.ofBits (condBits (fetch s))) s.cpsr = true ∧
        ∃ k, classify (fetch s) = .hook k ∧ r = .hook k (fetch s)))

/-- The saved status set is read by the return from exception only: in every other step it has no influence (R33). -/
def Obligations.SavedStatusIsReadOnlyByTheReturn : Prop :=
  ∀ (s : State) (p : Status), ¬ isExceptionReturn (fetch s) →
    step { s with spsr := p } = mapNext (fun t => { t with spsr := p }) (step s)

/-- The code store is read by instruction fetch only: two stores that agree on the four bytes at the pc give the same step
(R36, R56). -/
def Obligations.CodeStoreIsReadOnlyByFetch : Prop :=
  ∀ (s : State) (m : Memory),
    (∀ k < 4, readByte m (s.pc + BitVec.ofNat 32 k) = readByte s.code (s.pc + BitVec.ofNat 32 k)) →
    step { s with code := m } = mapNext (fun t => { t with code := m }) (step s)

/-- Every step keeps a sound state sound: the pc aligned for the mode, the code store in canonical form (R25). The advance by
4 is the spec's decision D1 and the execution of BX its D9 (log entry 13). -/
def Obligations.EveryStepKeepsSoundness : Prop :=
  ∀ s t : State, Sound s → step s = .next t → Sound t

/-- Every launch state is sound, starts in T = 0 and fetches its first instruction at `RESET_PC`; the model's own reset state,
whose unspecified values log entries 1 to 5 choose, is one of them (R45, R260). That T is 0 and RESET_PC a multiple of 4 is
the spec's decision D14 (R45, log entry 13). -/
def Obligations.LaunchIsSoundAndFetchesAtResetPc : Prop :=
  (∀ p : Launch, p.ok → Sound (State.launch p) ∧ (State.launch p).cpsr.t = false ∧
    fetch (State.launch p) = memRead p.code p.resetPc 4) ∧
  Sound State.reset ∧ State.reset.cpsr.t = false

/-- In every ARM-state step of a run from a launch state the pc is a multiple of 4 (R25). The launch states are the spec's
decision D14, the advance by 4 its D1, the execution of BX its D9 (log entry 13). -/
def Obligations.ReachableArmStatePcIsAligned : Prop :=
  ∀ (p : Launch) (k : Nat) (t : State), p.ok → runSteps k (State.launch p) = .next t → t.cpsr.t = false →
    t.pc.extractLsb' 0 2 = 0

/-- A run of at most `k` steps ends at the stop address exactly when `n ≤ k` retired steps lead to a state with the pc there and no
earlier step began there (R268). The stop address is the spec's decision D19 and the bound `k` the model's (log entry 17). -/
def Obligations.RunEndsAtTheFirstStopAddress : Prop :=
  ∀ (stop : Word) (k : Nat) (s t : State), runUntil stop k s = .stopAddress t ↔
    t.pc = stop ∧ ∃ n ≤ k, runSteps n s = .next t ∧ NotYetAt stop n s

/-- A run of at most `k` steps ends with a fault or a refusal, in the state where that step began, exactly when fewer than `k` retired
steps lead to that state, none of them nor that step began at the stop address, and the step in that state has that outcome (R268). The
end of a run is the spec's decision D19 and the bound `k` the model's (log entry 17). -/
def Obligations.RunEndsAtTheFirstStepThatDoesNotRetire : Prop :=
  ∀ (stop : Word) (k : Nat) (s t : State),
    (∀ f, runUntil stop k s = .fault f t ↔
      ∃ n < k, runSteps n s = .next t ∧ NotYetAt stop (n + 1) s ∧ step t = .fault f) ∧
    (∀ r, runUntil stop k s = .refusal r t ↔
      ∃ n < k, runSteps n s = .next t ∧ NotYetAt stop (n + 1) s ∧ step t = .refused r)
end

