-- ==== Sys2Proof/Laws/State.lean ====
section
/-! SUPPORT. What each state update leaves in each field: one lemma per field per update, so that no proof unfolds a record
update. -/

namespace Sys2Proof.Machine

section
variable (s : State) (p : Launch) (i : Nat) (h : i < 15) (v target : Word)

/-! ### `advance` -/

@[simp] theorem advance_regs : (advance s).regs = s.regs := rfl
@[simp] theorem advance_pc : (advance s).pc = s.pc + 4 := rfl
@[simp] theorem advance_cpsr : (advance s).cpsr = s.cpsr := rfl
@[simp] theorem advance_spsr : (advance s).spsr = s.spsr := rfl
@[simp] theorem advance_code : (advance s).code = s.code := rfl

/-! ### `storeReg` -/

@[simp] theorem storeReg_regs : (storeReg i h v s).regs = s.regs.set i v h := rfl
@[simp] theorem storeReg_pc : (storeReg i h v s).pc = s.pc := rfl
@[simp] theorem storeReg_cpsr : (storeReg i h v s).cpsr = s.cpsr := rfl
@[simp] theorem storeReg_spsr : (storeReg i h v s).spsr = s.spsr := rfl
@[simp] theorem storeReg_code : (storeReg i h v s).code = s.code := rfl

/-! ### `redirect` -/

@[simp] theorem redirect_redirected : (redirect target s).redirected = true := rfl
@[simp] theorem redirect_regs : (redirect target s).state.regs = s.regs := rfl
@[simp] theorem redirect_pc : (redirect target s).state.pc = target := rfl
@[simp] theorem redirect_cpsr : (redirect target s).state.cpsr = s.cpsr := rfl
@[simp] theorem redirect_spsr : (redirect target s).state.spsr = s.spsr := rfl
@[simp] theorem redirect_code : (redirect target s).state.code = s.code := rfl

/-! ### `exceptionReturn` -/

@[simp] theorem exceptionReturn_redirected : (exceptionReturn v s).redirected = true := rfl
@[simp] theorem exceptionReturn_regs : (exceptionReturn v s).state.regs = s.regs := rfl
@[simp] theorem exceptionReturn_pc : (exceptionReturn v s).state.pc = alignFor s.spsr.t v := rfl
@[simp] theorem exceptionReturn_cpsr : (exceptionReturn v s).state.cpsr = s.spsr := rfl
@[simp] theorem exceptionReturn_spsr : (exceptionReturn v s).state.spsr = s.spsr := rfl
@[simp] theorem exceptionReturn_code : (exceptionReturn v s).state.code = s.code := rfl

/-! ### `State.launch` -/

@[simp] theorem launch_regs : (State.launch p).regs = p.initRegs := rfl
@[simp] theorem launch_pc : (State.launch p).pc = p.resetPc := rfl
@[simp] theorem launch_cpsr : (State.launch p).cpsr = ⟨p.initN, p.initZ, p.initC, p.initV, false⟩ := rfl
@[simp] theorem launch_spsr : (State.launch p).spsr = p.initSpsr := rfl
@[simp] theorem launch_code : (State.launch p).code = p.code := rfl

/-! ### `State.withFetchWord` -/

variable (nbits w : Nat)

@[simp] theorem withFetchWord_regs : (s.withFetchWord nbits w).regs = s.regs := rfl
@[simp] theorem withFetchWord_pc : (s.withFetchWord nbits w).pc = s.pc := rfl
@[simp] theorem withFetchWord_cpsr : (s.withFetchWord nbits w).cpsr = { s.cpsr with t := false } := rfl
@[simp] theorem withFetchWord_spsr : (s.withFetchWord nbits w).spsr = s.spsr := rfl
@[simp] theorem withFetchWord_code :
    (s.withFetchWord nbits w).code = loadWord s.code s.pc (BitVec.ofNat 32 (w % 2 ^ nbits)) := rfl

end

end Sys2Proof.Machine
end

