-- ==== Sys2Proof/Laws/Memory.lean ====
section
/-! SUPPORT. The laws of the code store: read after write, and the canonical form kept by every operation that places a byte. -/

namespace Sys2Proof.Machine

theorem Memory.wf_nil : Memory.wf [] := by simp [Memory.wf]

theorem Memory.wf_tail {p : Host.Cell} {m : Memory} (h : Memory.wf (p :: m)) : m.wf :=
  ⟨(List.pairwise_cons.1 h.1).2, fun q hq => h.2 q (List.mem_cons_of_mem p hq)⟩

/-- An address below every listed one is not listed. -/
theorem Memory.read_eq_unlisted_of_lt {m : Memory} {a : Nat} (h : ∀ p ∈ m, a < p.1) :
    m.read a = Config.unlistedByte := by
  induction m with
  | nil => rfl
  | cons p m ih =>
    have hp := h p (List.mem_cons_self ..)
    simp only [Memory.read]
    rw [if_neg (by omega)]
    exact ih fun q hq => h q (List.mem_cons_of_mem p hq)

theorem Memory.read_write_same {m : Memory} (hm : m.wf) (a : Nat) (b : Byte) : (m.write a b).read a = b := by
  induction m with
  | nil => by_cases hb : b = Config.unlistedByte <;> simp [Memory.write, Memory.read, hb]
  | cons p m ih =>
    obtain ⟨k, v⟩ := p
    have hlow : ∀ q ∈ m, k < q.1 := (List.pairwise_cons.1 hm.1).1
    simp only [Memory.write]
    by_cases hak : a < k
    · by_cases hb : b = Config.unlistedByte
      · rw [if_pos hak, if_pos hb, hb]
        refine Memory.read_eq_unlisted_of_lt fun q hq => ?_
        rcases List.mem_cons.1 hq with rfl | hq
        · exact hak
        · exact Nat.lt_trans hak (hlow q hq)
      · simp [hak, hb, Memory.read]
    · by_cases hka : k = a
      · by_cases hb : b = Config.unlistedByte
        · rw [if_neg hak, if_pos hka, if_pos hb, hb]
          exact Memory.read_eq_unlisted_of_lt fun q hq => hka ▸ hlow q hq
        · simp [hka, hb, Memory.read]
      · simpa [hak, hka, Memory.read] using ih (Memory.wf_tail hm)

theorem Memory.read_write_other {m : Memory} {a c : Nat} (hne : c ≠ a) (b : Byte) :
    (m.write a b).read c = m.read c := by
  induction m with
  | nil => by_cases hb : b = Config.unlistedByte <;> simp [Memory.write, Memory.read, hb, Ne.symm hne]
  | cons p m ih =>
    obtain ⟨k, v⟩ := p
    simp only [Memory.write]
    by_cases hak : a < k
    · by_cases hb : b = Config.unlistedByte <;> simp [hak, hb, Memory.read, Ne.symm hne]
    · by_cases hka : k = a
      · by_cases hb : b = Config.unlistedByte <;> simp [hka, hb, Memory.read, Ne.symm hne]
      · simp [hak, hka, Memory.read, ih]

/-- What a write can list: what was listed, and the cell written. -/
theorem Memory.mem_write {m : Memory} {a : Nat} {b : Byte} {q : Host.Cell} (h : q ∈ m.write a b) :
    q ∈ m ∨ (q = (a, b) ∧ b ≠ Config.unlistedByte) := by
  induction m with
  | nil =>
    by_cases hb : b = Config.unlistedByte <;> simp [Memory.write, hb] at h
    exact .inr ⟨h, hb⟩
  | cons p m ih =>
    obtain ⟨k, v⟩ := p
    simp only [Memory.write] at h
    split at h
    · split at h
      · exact .inl h
      · rename_i hb
        rcases List.mem_cons.1 h with h | h
        · exact .inr ⟨h, hb⟩
        · exact .inl h
    · split at h
      · split at h
        · exact .inl (List.mem_cons_of_mem _ h)
        · rename_i hb
          rcases List.mem_cons.1 h with h | h
          · exact .inr ⟨h, hb⟩
          · exact .inl (List.mem_cons_of_mem _ h)
      · rcases List.mem_cons.1 h with h | h
        · exact .inl (h ▸ List.mem_cons_self ..)
        · exact (ih h).imp (List.mem_cons_of_mem _) id

/-- Placing a byte at a 32-bit address keeps the canonical form. -/
theorem Memory.write_wf {m : Memory} (hm : m.wf) {a : Nat} (ha : a < 2 ^ 32) (b : Byte) : (m.write a b).wf := by
  refine ⟨?_, fun q hq => ?_⟩
  · induction m with
    | nil => by_cases hb : b = Config.unlistedByte <;> simp [Memory.write, hb]
    | cons p m ih =>
      obtain ⟨k, v⟩ := p
      obtain ⟨hlow, hrest⟩ := List.pairwise_cons.1 hm.1
      simp only [Memory.write]
      split
      · rename_i hak
        split
        · exact hm.1
        · refine List.pairwise_cons.2 ⟨fun q hq => ?_, hm.1⟩
          rcases List.mem_cons.1 hq with rfl | hq
          · exact hak
          · exact Nat.lt_trans hak (hlow q hq)
      · rename_i hak
        split
        · rename_i hka
          subst hka
          split
          · exact hrest
          · exact List.pairwise_cons.2 ⟨hlow, hrest⟩
        · rename_i hka
          refine List.pairwise_cons.2 ⟨fun q hq => ?_, ih (Memory.wf_tail hm)⟩
          rcases Memory.mem_write hq with hq | ⟨rfl, -⟩
          · exact hlow q hq
          · show k < a
            omega
  · rcases Memory.mem_write hq with hq | ⟨rfl, hb⟩
    · exact hm.2 q hq
    · exact ⟨ha, hb⟩

theorem loadBytes_wf {bs : List Byte} : ∀ {m : Memory} (_ : m.wf) (a : Word), (loadBytes m a bs).wf := by
  induction bs with
  | nil => exact fun hm _ => hm
  | cons b bs ih => exact fun hm a => ih (Memory.write_wf hm a.isLt b) (a + 1)

theorem loadWord_wf {m : Memory} (hm : m.wf) (a w : Word) : (loadWord m a w).wf := loadBytes_wf hm a

theorem withFetchWord_wf {s : State} (hs : s.code.wf) (nbits w : Nat) : (s.withFetchWord nbits w).code.wf :=
  loadWord_wf hs ..

theorem reset_code_wf : State.reset.code.wf := Memory.wf_nil

theorem readByte_write_same {m : Memory} (hm : m.wf) (a : Word) (b : Byte) : readByte (m.write a.toNat b) a = b :=
  Memory.read_write_same hm a.toNat b

theorem readByte_write_other {m : Memory} {a c : Word} (hne : c ≠ a) (b : Byte) :
    readByte (m.write a.toNat b) c = readByte m c :=
  Memory.read_write_other (fun h => hne (BitVec.eq_of_toNat_eq h)) b

/-- The four bytes of a fetch, the lowest address least significant (R52). -/
theorem memRead_four (m : Memory) (a : Word) :
    memRead m a 4 = readByte m (a + 3) ++ readByte m (a + 2) ++ readByte m (a + 1) ++ readByte m a := by
  have h2 : a + 1 + 1 = a + 2 := by rw [BitVec.add_assoc]; rfl
  have h3 : a + 2 + 1 = a + 3 := by rw [BitVec.add_assoc]; rfl
  have append_zero (b : Byte) : ((0#0 ++ b : BitVec (0 + 8)) : BitVec 8) = b := by
    refine BitVec.eq_of_toNat_eq ?_
    show BitVec.toNat (w := 0 + 8) (0#0 ++ b) = b.toNat
    rw [BitVec.toNat_append]
    simp
  simp only [memRead, h2, h3]
  exact congrArg (fun b3 : Byte => b3 ++ readByte m (a + 2) ++ readByte m (a + 1) ++ readByte m a) (append_zero _)

/-- A word placed at an address is what a fetch at that address reads (R52, R54). -/
theorem memRead_loadWord {m : Memory} (hm : m.wf) (a w : Word) : memRead (loadWord m a w) a 4 = w := by
  have ne (k j : Nat) (hkj : k ≠ j) (hk : k < 4) (hj : j < 4) : a + BitVec.ofNat 32 k ≠ a + BitVec.ofNat 32 j := by
    intro h
    have := congrArg BitVec.toNat (BitVec.add_right_inj a |>.1 h)
    simp at this
    omega
  have h1 : a + 1 + 1 = a + 2 := by rw [BitVec.add_assoc]; rfl
  have h2 : a + 2 + 1 = a + 3 := by rw [BitVec.add_assoc]; rfl
  have h0 : a + BitVec.ofNat 32 0 = a := BitVec.add_zero a
  have w0 := Memory.write_wf hm a.isLt (w.extractLsb' 0 8)
  have w1 := Memory.write_wf w0 (a + 1).isLt (w.extractLsb' 8 8)
  have w2 := Memory.write_wf w1 (a + 2).isLt (w.extractLsb' 16 8)
  have n01 : a ≠ a + 1 := fun h => ne 0 1 (by decide) (by decide) (by decide) (h0.trans h)
  have n02 : a ≠ a + 2 := fun h => ne 0 2 (by decide) (by decide) (by decide) (h0.trans h)
  have n03 : a ≠ a + 3 := fun h => ne 0 3 (by decide) (by decide) (by decide) (h0.trans h)
  have n12 : a + 1 ≠ a + 2 := ne 1 2 (by decide) (by decide) (by decide)
  have n13 : a + 1 ≠ a + 3 := ne 1 3 (by decide) (by decide) (by decide)
  have n23 : a + 2 ≠ a + 3 := ne 2 3 (by decide) (by decide) (by decide)
  rw [memRead_four]
  simp only [loadWord, wordBytes, loadBytes, h1, h2]
  rw [readByte_write_same w2, readByte_write_other n23, readByte_write_same w1, readByte_write_other n13,
    readByte_write_other n12, readByte_write_same w0, readByte_write_other n03, readByte_write_other n02,
    readByte_write_other n01, readByte_write_same hm]
  refine BitVec.eq_of_getLsbD_eq fun i hi => ?_
  simp only [BitVec.getLsbD_append, BitVec.getLsbD_extractLsb']
  by_cases h8 : i < 8
  · simp [h8]
  · by_cases h16 : i < 16
    · simp [h8, show i - 8 < 8 by omega, show 8 + (i - 8) = i by omega]
    · by_cases h24 : i < 24
      · simp [h8, show ¬ i - 8 < 8 by omega, show i - 8 - 8 < 8 by omega, show 16 + (i - 8 - 8) = i by omega]
      · simp [h8, show ¬ i - 8 < 8 by omega, show ¬ i - 8 - 8 < 8 by omega, show i - 8 - 8 - 8 < 8 by omega,
          show 24 + (i - 8 - 8 - 8) = i by omega]

theorem fetch_withFetchWord {s : State} (hs : s.code.wf) (w : Nat) :
    fetch (s.withFetchWord 32 w) = BitVec.ofNat 32 w := by
  rw [fetch, withFetchWord_code, withFetchWord_pc, memRead_loadWord hs]
  exact BitVec.eq_of_toNat_eq (by simp)

end Sys2Proof.Machine
end

