-- ==== Sys2Proof/Laws/Ops.lean ====
section
/-! SUPPORT. What the register, pc and outcome operations do, said once. -/

namespace Sys2Proof.Machine

/-! ### Reads -/

theorem regRead_pc (s : State) : regRead 15 s = s.pc + 4 := rfl

theorem regRead_stored {i : RegIdx} (h : i.val < 15) (s : State) : regRead i s = s.regs[i.val] := dif_pos h

theorem regIdx_lt_or_pc (i : RegIdx) : i.val < 15 ∨ i = 15 := by
  rcases Nat.lt_or_ge i.val 15 with h | h
  · exact .inl h
  · exact .inr (Fin.ext (by have := i.isLt; simp; omega))

/-! ### Writes -/

theorem writeReg_stored {i : RegIdx} (h : i.val < 15) (v : Word) (s : State) :
    writeReg i v s = ⟨storeReg i.val h v s, false⟩ := dif_pos h

theorem writeReg_pc (v : Word) (s : State) : writeReg 15 v s = redirect (alignWord v) s := rfl

theorem writeRegS_stored {i : RegIdx} (h : i.val < 15) (v : Word) (s : State) :
    writeRegS i v s = ⟨storeReg i.val h v s, false⟩ := dif_pos h

theorem writeRegS_pc (v : Word) (s : State) : writeRegS 15 v s = exceptionReturn v s := rfl

/-! ### Alignment -/

/-- `v & ~3` is the multiple of 4 at or below `v`. -/
theorem alignWord_toNat (v : Word) : (alignWord v).toNat = v.toNat / 4 * 4 := by
  have h : alignWord v = v >>> 2 <<< 2 := by
    ext i hi
    simp only [alignWord, BitVec.getElem_and, BitVec.getElem_shiftLeft]
    rcases i with _ | _ | i
    · simp
    · simp
    · have : (0xFFFFFFFC#32).getLsbD (i + 2) = true := by
        have : ∀ j < 30, (0xFFFFFFFC#32).getLsbD (j + 2) = true := by decide
        exact this i (by omega)
      simp only [BitVec.getLsbD_eq_getElem hi] at this
      simp [this]
      rw [Nat.add_comm 2 i, BitVec.getLsbD_eq_getElem hi]
  rw [h]
  have := v.isLt
  simp [BitVec.toNat_ushiftRight, BitVec.toNat_shiftLeft, Nat.shiftRight_eq_div_pow, Nat.shiftLeft_eq]
  omega

/-- `v & ~1` is the multiple of 2 at or below `v`. -/
theorem alignHalf_toNat (v : Word) : (alignHalf v).toNat = v.toNat / 2 * 2 := by
  have h : alignHalf v = v >>> 1 <<< 1 := by
    ext i hi
    simp only [alignHalf, BitVec.getElem_and, BitVec.getElem_shiftLeft]
    rcases i with _ | i
    · simp
    · have : (0xFFFFFFFE#32).getLsbD (i + 1) = true := by
        have : ∀ j < 31, (0xFFFFFFFE#32).getLsbD (j + 1) = true := by decide
        exact this i (by omega)
      simp only [BitVec.getLsbD_eq_getElem hi] at this
      simp [this]
      rw [Nat.add_comm 1 i, BitVec.getLsbD_eq_getElem hi]
  rw [h]
  have := v.isLt
  simp [BitVec.toNat_ushiftRight, BitVec.toNat_shiftLeft, Nat.shiftRight_eq_div_pow, Nat.shiftLeft_eq]
  omega

/-! ### Outcomes -/

@[simp] theorem retire_stored (s : State) : retire ⟨s, false⟩ = .next (advance s) := rfl

@[simp] theorem retire_redirect (target : Word) (s : State) : retire (redirect target s) = .next (redirect target s).state :=
  rfl

@[simp] theorem retire_exceptionReturn (v : Word) (s : State) :
    retire (exceptionReturn v s) = .next (exceptionReturn v s).state := rfl

theorem gated_pass {c : Cond} {s : State} (h : condPass c s.cpsr = true) (r : Result) : gated c s r = r := if_pos h

theorem gated_fail {c : Cond} {s : State} (h : condPass c s.cpsr = false) (r : Result) :
    gated c s r = .next (advance s) := if_neg (by simp [h])

/-- A gated instruction that retires was skipped, or passed and retired. -/
theorem gated_next {c : Cond} {s t : State} {r : Result} (h : gated c s r = .next t) :
    (condPass c s.cpsr = false ∧ t = advance s) ∨ (condPass c s.cpsr = true ∧ r = .next t) := by
  cases hc : condPass c s.cpsr
  · rw [gated_fail hc] at h
    exact .inl ⟨rfl, (Host.Outcome.next.inj h).symm⟩
  · rw [gated_pass hc] at h
    exact .inr ⟨rfl, h⟩

/-- What a write-back by `WriteReg` leaves when the step retires: a register stored and the pc advanced, or a branch. -/
theorem retire_writeReg {i : RegIdx} {v : Word} {s t : State} (h : retire (writeReg i v s) = .next t) :
    (∃ hi : i.val < 15, t = advance (storeReg i.val hi v s)) ∨ (i = 15 ∧ t = { s with pc := alignWord v }) := by
  rcases regIdx_lt_or_pc i with hi | rfl
  · rw [writeReg_stored hi] at h
    exact .inl ⟨hi, (Host.Outcome.next.inj h).symm⟩
  · exact .inr ⟨rfl, (Host.Outcome.next.inj h).symm⟩

/-- The same for `WriteRegS`: register 15 is the return from exception. -/
theorem retire_writeRegS {i : RegIdx} {v : Word} {s t : State} (h : retire (writeRegS i v s) = .next t) :
    (∃ hi : i.val < 15, t = advance (storeReg i.val hi v s)) ∨
      (i = 15 ∧ t = { s with pc := alignFor s.spsr.t v, cpsr := s.spsr }) := by
  rcases regIdx_lt_or_pc i with hi | rfl
  · rw [writeRegS_stored hi] at h
    exact .inl ⟨hi, (Host.Outcome.next.inj h).symm⟩
  · exact .inr ⟨rfl, (Host.Outcome.next.inj h).symm⟩

end Sys2Proof.Machine
end

