-- ==== Sys2Proof/Laws/Exec.lean ====
section
/-! SUPPORT. What running an instruction comes to, said once: the executor an instruction uses, the condition and shape of a
decoded word, and every way a step can retire. -/

namespace Sys2Proof.Machine

/-- The ALU operation of an opcode (R192). -/
def aluOf : Opcode → Word → Word → Bool → AluResult
  | .and => aluAnd | .eor => aluEor | .sub => aluSub | .rsb => aluRsb
  | .add => aluAdd | .adc => aluAdc | .sbc => aluSbc | .rsc => aluRsc
  | .tst => aluTst | .teq => aluTeq | .cmp => aluCmp | .cmn => aluCmn
  | .orr => aluOrr | .mov => aluMov | .bic => aluBic | .mvn => aluMvn

theorem exec_dp_write {op : Opcode} (hop : isTest op = false) (c : Cond) (sf : Bool) (rn rd : RegIdx) (o : Operand2)
    (s : State) : exec (.dp op c sf rn rd o) s = dataProcess (aluOf op) c sf rn rd o s := by
  cases op <;> first | contradiction | (cases o <;> rfl)

theorem exec_dp_test {op : Opcode} (hop : isTest op = true) (c : Cond) (sf : Bool) (rn rd : RegIdx) (o : Operand2)
    (s : State) : exec (.dp op c sf rn rd o) s = dataTest (aluOf op) c rn rd o s := by
  cases op <;> first | contradiction | (cases o <;> rfl)

theorem dp_cond (op : Opcode) (c : Cond) (sf : Bool) (rn rd : RegIdx) (o : Operand2) :
    (Instr.dp op c sf rn rd o).cond = c := by
  cases op <;> cases o <;> rfl

/-! ### Hooks and undefined words -/

theorem exec_hookInstr (k : HookClass) (c : Cond) (body : BitVec 28) (s : State) :
    exec (hookInstr k c body) s = gated c s (hook k (bodyWord c body)) := by
  cases k
  case psrReg => simp only [hookInstr]; split <;> rfl
  all_goals rfl

theorem exec_undefinedInstr (c : Cond) (body : BitVec 28) (s : State) :
    exec (undefinedInstr c body) s = gated c s (undefinedTrap (bodyWord c body)) := by
  simp only [undefinedInstr]; split <;> rfl

/-! ### The decoded word -/

theorem decodeWord_dp {w : Word} (h : isDpWord w) :
    ∃ o, decodeWord w =
      .dp (.ofBits (opcodeBits w)) (.ofBits (condBits w)) (sBit w) (rnField w) (rdField w) o := by
  rcases h with h | h | h <;> exact ⟨_, by simp only [decodeWord, h]; rfl⟩

theorem decodeWord_bx {w : Word} (h : classify w = .bx) : decodeWord w = .bx (.ofBits (condBits w)) (rmField w) := by
  simp only [decodeWord, h]

theorem decodeWord_hook {w : Word} {k : HookClass} (h : classify w = .hook k) :
    decodeWord w = hookInstr k (.ofBits (condBits w)) (bodyBits w) := by
  simp only [decodeWord, h]

theorem decodeWord_undefined {w : Word} (h : classify w = .undefined) :
    decodeWord w = undefinedInstr (.ofBits (condBits w)) (bodyBits w) := by
  simp only [decodeWord, h]

theorem class_cases (w : Word) :
    isDpWord w ∨ classify w = .bx ∨ (∃ k, classify w = .hook k) ∨ classify w = .undefined := by
  unfold isDpWord
  cases classify w <;> simp

theorem isPsrTransfer_false_of_dp {w : Word} (h : isDpWord w) : isPsrTransfer w = false := by
  unfold isDpWord classify classifyRegisterSpace classifyExtension at h
  cases hp : isPsrTransfer w
  · rfl
  · simp only [hp, if_true] at h
    split at h <;> repeat' split at h
    all_goals simp at h

theorem hookInstr_cond (k : HookClass) (c : Cond) (body : BitVec 28) : (hookInstr k c body).cond = c := by
  cases k
  case psrReg => simp only [hookInstr]; split <;> rfl
  all_goals rfl

theorem undefinedInstr_cond (c : Cond) (body : BitVec 28) : (undefinedInstr c body).cond = c := by
  simp only [undefinedInstr]; split <;> rfl

theorem decodeWord_cond (w : Word) : (decodeWord w).cond = .ofBits (condBits w) := by
  rcases class_cases w with h | h | ⟨k, h⟩ | h
  · obtain ⟨o, ho⟩ := decodeWord_dp h
    rw [ho, dp_cond]
  · rw [decodeWord_bx h]; rfl
  · rw [decodeWord_hook h, hookInstr_cond]
  · rw [decodeWord_undefined h, undefinedInstr_cond]

/-- The condition bits and the bits below them are the word. -/
theorem bodyWord_fields (w : Word) : bodyWord (.ofBits (condBits w)) (bodyBits w) = w := by
  have h : ∀ b : BitVec 4, (Cond.ofBits b).toBits = b := by decide
  rw [bodyWord, h]
  refine BitVec.eq_of_getLsbD_eq fun i hi => ?_
  simp only [condBits, bodyBits, BitVec.getLsbD_append, BitVec.getLsbD_extractLsb']
  by_cases h28 : i < 28
  · simp [h28]
  · simp [h28, show i - 28 < 4 by omega, show 28 + (i - 28) = i by omega]

/-! ### Every way an instruction retires -/

/-- A writing opcode that retires was skipped, stored Rd, or wrote the pc. -/
theorem dataProcess_next {alu : Word → Word → Bool → AluResult} {c : Cond} {sf : Bool} {rn rd : RegIdx} {o : Operand2}
    {s t : State} (h : dataProcess alu c sf rn rd o s = .next t) :
    (condPass c s.cpsr = false ∧ t = advance s) ∨
    condPass c s.cpsr = true ∧
      ((∃ hi : rd.val < 15, ∃ v, t = advance (storeReg rd.val hi v (if sf then dpSetFlags alu rn o s else s))) ∨
        (rd = 15 ∧ sf = false ∧ ∃ v, t = { s with pc := alignWord v }) ∨
        (rd = 15 ∧ sf = true ∧ ∃ v, t = { s with pc := alignFor s.spsr.t v, cpsr := s.spsr })) := by
  rcases gated_next h with h | ⟨hc, h⟩
  · exact .inl h
  · refine .inr ⟨hc, ?_⟩
    cases sf
    · rcases retire_writeReg h with ⟨hi, ht⟩ | ⟨hrd, ht⟩
      · exact .inl ⟨hi, _, ht⟩
      · exact .inr (.inl ⟨hrd, rfl, _, ht⟩)
    · rcases retire_writeRegS h with ⟨hi, ht⟩ | ⟨hrd, ht⟩
      · exact .inl ⟨hi, _, ht⟩
      · exact .inr (.inr ⟨hrd, rfl, _, ht⟩)

/-- A test opcode that retires was skipped, or set flags and advanced. -/
theorem dataTest_next {alu : Word → Word → Bool → AluResult} {c : Cond} {rn rd : RegIdx} {o : Operand2} {s t : State}
    (h : dataTest alu c rn rd o s = .next t) :
    (condPass c s.cpsr = false ∧ t = advance s) ∨
    (condPass c s.cpsr = true ∧ t = advance (dpSetFlags alu rn o s)) := by
  rcases gated_next h with h | ⟨hc, h⟩
  · exact .inl h
  · exact .inr ⟨hc, (Host.Outcome.next.inj h).symm⟩

/-- BX that retires was skipped, or set T and the pc. -/
theorem execBx_next {c : Cond} {rm : RegIdx} {s t : State} (h : execBx c rm s = .next t) :
    (condPass c s.cpsr = false ∧ t = advance s) ∨
    (condPass c s.cpsr = true ∧
      t = { s with
        pc := alignFor ((regRead rm s).getLsbD 0) (regRead rm s)
        cpsr := { s.cpsr with t := (regRead rm s).getLsbD 0 } }) := by
  rcases gated_next h with h | ⟨hc, h⟩
  · exact .inl h
  · exact .inr ⟨hc, (Host.Outcome.next.inj h).symm⟩

/-- Flag setting leaves everything but N, Z, C and V. -/
theorem dpStatus_t (shifterC : Option Bool) (r : AluResult) (f : Status) : (dpStatus shifterC r f).t = f.t := by
  simp only [dpStatus]
  cases shifterC <;> rcases r.arith with _ | ⟨c, v⟩ <;> rfl

@[simp] theorem dpSetFlags_regs (alu rn o s) : (dpSetFlags alu rn o s).regs = s.regs := rfl
@[simp] theorem dpSetFlags_pc (alu rn o s) : (dpSetFlags alu rn o s).pc = s.pc := rfl
@[simp] theorem dpSetFlags_t (alu rn o s) : (dpSetFlags alu rn o s).cpsr.t = s.cpsr.t := dpStatus_t ..
@[simp] theorem dpSetFlags_spsr (alu rn o s) : (dpSetFlags alu rn o s).spsr = s.spsr := rfl
@[simp] theorem dpSetFlags_code (alu rn o s) : (dpSetFlags alu rn o s).code = s.code := rfl

/-! ### Every way a step retires -/

/-- What a step can do when it retires, with the word that makes it do so. -/
inductive StepEffect (s t : State) : Prop where
  /-- The condition failed. -/
  | skip (hc : condPass (.ofBits (condBits (fetch s))) s.cpsr = false) (ht : t = advance s)
  /-- A data-processing word stored its Rd. -/
  | store (hc : condPass (.ofBits (condBits (fetch s))) s.cpsr = true) (hi : (rdField (fetch s)).val < 15)
      (hw : writesReg (fetch s) (rdField (fetch s))) (alu rn o v)
      (ht : t = advance (storeReg (rdField (fetch s)).val hi v
        (if sBit (fetch s) then dpSetFlags alu rn o s else s)))
  /-- A data-processing word with S = 0 wrote register 15. -/
  | branch (hc : condPass (.ofBits (condBits (fetch s))) s.cpsr = true) (hw : writesReg (fetch s) 15)
      (hs : sBit (fetch s) = false) (v) (ht : t = { s with pc := alignWord v })
  /-- A data-processing word with S = 1 wrote register 15. -/
  | exceptionReturn (hc : condPass (.ofBits (condBits (fetch s))) s.cpsr = true) (hw : isExceptionReturn (fetch s)) (v)
      (ht : t = { s with pc := alignFor s.spsr.t v, cpsr := s.spsr })
  /-- A test set the flags. -/
  | test (hc : condPass (.ofBits (condBits (fetch s))) s.cpsr = true) (hd : isDpWord (fetch s))
      (hs : sBit (fetch s) = true) (alu rn o) (ht : t = advance (dpSetFlags alu rn o s))
  /-- BX. -/
  | exchange (hc : condPass (.ofBits (condBits (fetch s))) s.cpsr = true) (hb : classify (fetch s) = .bx) (v : Word)
      (ht : t = { s with pc := alignFor (v.getLsbD 0) v, cpsr := { s.cpsr with t := v.getLsbD 0 } })

theorem sBit_of_test {w : Word} (hd : isDpWord w) (ht : isTest (.ofBits (opcodeBits w)) = true) : sBit w = true := by
  have hp := isPsrTransfer_false_of_dp hd
  have key : ∀ b : BitVec 4, isTest (.ofBits b) = true → (b == 8 || b == 9 || b == 10 || b == 11) = true := by decide
  simp only [isPsrTransfer, key _ ht, Bool.true_and, Bool.not_eq_false'] at hp
  exact hp

theorem step_of_arm {s : State} (ht : s.cpsr.t = false) : step s = exec (decodeWord (fetch s)) s := if_neg (by simp [ht])

theorem step_of_thumb {s : State} (ht : s.cpsr.t = true) : step s = .refused .thumbState := if_pos ht

theorem arm_of_step_next {s t : State} (h : step s = .next t) : s.cpsr.t = false := by
  cases ht : s.cpsr.t
  · rfl
  · rw [step_of_thumb ht] at h
    cases h

/-- The inversion of a step: a step that retires has one of six effects. -/
theorem step_next {s t : State} (h : step s = .next t) : StepEffect s t := by
  rw [step_of_arm (arm_of_step_next h)] at h
  rcases class_cases (fetch s) with hd | hb | ⟨k, hk⟩ | hu
  · obtain ⟨o, ho⟩ := decodeWord_dp hd
    rw [ho] at h
    cases htest : isTest (.ofBits (opcodeBits (fetch s)))
    · rw [exec_dp_write htest] at h
      rcases dataProcess_next h with ⟨hc, ht⟩ | ⟨hc, ⟨hi, v, ht⟩ | ⟨hrd, hs, v, ht⟩ | ⟨hrd, hs, v, ht⟩⟩
      · exact .skip hc ht
      · exact .store hc hi ⟨hd, rfl, htest⟩ _ _ _ v ht
      · exact .branch hc ⟨hd, hrd, htest⟩ hs v ht
      · exact .exceptionReturn hc ⟨⟨hd, hrd, htest⟩, hs⟩ v ht
    · rw [exec_dp_test htest] at h
      rcases dataTest_next h with ⟨hc, ht⟩ | ⟨hc, ht⟩
      · exact .skip hc ht
      · exact .test hc hd (sBit_of_test hd htest) _ _ _ ht
  · rw [decodeWord_bx hb] at h
    rcases execBx_next h with ⟨hc, ht⟩ | ⟨hc, ht⟩
    · exact .skip hc ht
    · exact .exchange hc hb _ ht
  · rw [decodeWord_hook hk, exec_hookInstr] at h
    rcases gated_next h with ⟨hc, ht⟩ | ⟨-, h⟩
    · exact .skip hc ht
    · cases h
  · rw [decodeWord_undefined hu, exec_undefinedInstr] at h
    rcases gated_next h with ⟨hc, ht⟩ | ⟨-, h⟩
    · exact .skip hc ht
    · cases h

/-! ### Runs -/

/-- A run whose first step retires goes on from the state that step leaves. -/
theorem runSteps_of_next {s t : State} (h : step s = .next t) (k : Nat) : runSteps (k + 1) s = runSteps k t := by
  simp only [runSteps, h]

/-- A run that begins at the stop address is over. -/
theorem runUntil_at_stop {stop : Word} {s : State} (h : s.pc = stop) (k : Nat) : runUntil stop k s = .stopAddress s := by
  unfold runUntil
  exact if_pos h

/-- A run that begins elsewhere and whose first step retires goes on from the state that step leaves. -/
theorem runUntil_of_next {stop : Word} {s t : State} (h : s.pc ≠ stop) (ht : step s = .next t) (k : Nat) :
    runUntil stop (k + 1) s = runUntil stop k t := by
  simp only [runUntil, if_neg h, ht]

end Sys2Proof.Machine
end

