-- ==== Sys2Proof/Laws/Encoding.lean ====
section
/-! SUPPORT. The fields of an encoded word read back, format by format (R72 to R75), and the class of each format's words. -/

namespace Sys2Proof

/-- A register field whose four bits are a register's number is that register. -/
theorem regIdx_of_bits {b : BitVec 4} {r : RegIdx} (h : b = encodeReg r) : b.toFin = r := by
  rw [h]
  rfl

theorem cond_roundtrip (c : Cond) : Cond.ofBits c.toBits = c := by cases c <;> rfl

theorem shiftType_roundtrip (ty : ShiftType) : ShiftType.ofBits ty.toBits = ty := by cases ty <;> rfl

theorem opcode_roundtrip (op : Opcode) : Opcode.ofBits op.toBits = op := by cases op <;> rfl

/-! ### `dpImmWord` -/

@[simp] theorem condBits_dpImmWord (op c sf rn rd rot imm8) : condBits (dpImmWord op c sf rn rd rot imm8) = c.toBits := by
  simp (disch := decide) only [condBits, dpImmWord, BitVec.extractLsb'_append_eq_of_le]
  exact BitVec.extractLsb'_eq_self

@[simp] theorem opcodeBits_dpImmWord (op c sf rn rd rot imm8) : opcodeBits (dpImmWord op c sf rn rd rot imm8) = op.toBits := by
  simp (disch := decide) only [opcodeBits, dpImmWord, BitVec.extractLsb'_append_eq_of_le,
    BitVec.extractLsb'_append_eq_of_add_le]
  exact BitVec.extractLsb'_eq_self

@[simp] theorem rnField_dpImmWord (op c sf rn rd rot imm8) : rnField (dpImmWord op c sf rn rd rot imm8) = rn := by
  refine regIdx_of_bits ?_
  simp (disch := decide) only [dpImmWord, BitVec.extractLsb'_append_eq_of_le,
    BitVec.extractLsb'_append_eq_of_add_le]
  exact BitVec.extractLsb'_eq_self

@[simp] theorem rdField_dpImmWord (op c sf rn rd rot imm8) : rdField (dpImmWord op c sf rn rd rot imm8) = rd := by
  refine regIdx_of_bits ?_
  simp (disch := decide) only [dpImmWord, BitVec.extractLsb'_append_eq_of_le,
    BitVec.extractLsb'_append_eq_of_add_le]
  exact BitVec.extractLsb'_eq_self

@[simp] theorem rotField_dpImmWord (op c sf rn rd rot imm8) : rotField (dpImmWord op c sf rn rd rot imm8) = rot := by
  simp (disch := decide) only [rotField, dpImmWord, BitVec.extractLsb'_append_eq_of_le,
    BitVec.extractLsb'_append_eq_of_add_le]
  exact BitVec.extractLsb'_eq_self

@[simp] theorem imm8Field_dpImmWord (op c sf rn rd rot imm8) : imm8Field (dpImmWord op c sf rn rd rot imm8) = imm8 := by
  simp (disch := decide) only [imm8Field, dpImmWord, BitVec.extractLsb'_append_eq_of_add_le]
  exact BitVec.extractLsb'_eq_self

@[simp] theorem sBit_dpImmWord (op c sf rn rd rot imm8) : sBit (dpImmWord op c sf rn rd rot imm8) = sf := by
  simp only [sBit, dpImmWord, BitVec.getLsbD_append]
  cases sf <;> rfl

theorem catBits_dpImmWord (op c sf rn rd rot imm8) :
    catBits (dpImmWord op c sf rn rd rot imm8) = 2 ∨ catBits (dpImmWord op c sf rn rd rot imm8) = 3 := by
  have h : ∀ i < 4, (catBits (dpImmWord op c sf rn rd rot imm8)).getLsbD i =
      (if i = 0 then op.toBits.getLsbD 3 else (0b001#3).getLsbD (i - 1)) := by
    intro i hi
    simp only [catBits, dpImmWord, BitVec.getLsbD_extractLsb', hi, decide_true, Bool.true_and]
    have : i = 0 ∨ i = 1 ∨ i = 2 ∨ i = 3 := by omega
    rcases this with rfl | rfl | rfl | rfl <;> simp only [BitVec.getLsbD_append] <;> rfl
  cases h3 : op.toBits.getLsbD 3 <;> rw [h3] at h
  · refine .inl (BitVec.eq_of_getLsbD_eq fun i hi => (h i hi).trans ?_)
    revert i
    decide
  · refine .inr (BitVec.eq_of_getLsbD_eq fun i hi => (h i hi).trans ?_)
    revert i
    decide

/-! ### `dpImmShiftWord` -/

@[simp] theorem condBits_dpImmShiftWord (op c sf rn rd shamt5 ty rm) :
    condBits (dpImmShiftWord op c sf rn rd shamt5 ty rm) = c.toBits := by
  simp (disch := decide) only [condBits, dpImmShiftWord, BitVec.extractLsb'_append_eq_of_le]
  exact BitVec.extractLsb'_eq_self

@[simp] theorem opcodeBits_dpImmShiftWord (op c sf rn rd shamt5 ty rm) :
    opcodeBits (dpImmShiftWord op c sf rn rd shamt5 ty rm) = op.toBits := by
  simp (disch := decide) only [opcodeBits, dpImmShiftWord, BitVec.extractLsb'_append_eq_of_le,
    BitVec.extractLsb'_append_eq_of_add_le]
  exact BitVec.extractLsb'_eq_self

@[simp] theorem rnField_dpImmShiftWord (op c sf rn rd shamt5 ty rm) :
    rnField (dpImmShiftWord op c sf rn rd shamt5 ty rm) = rn := by
  refine regIdx_of_bits ?_
  simp (disch := decide) only [dpImmShiftWord, BitVec.extractLsb'_append_eq_of_le,
    BitVec.extractLsb'_append_eq_of_add_le]
  exact BitVec.extractLsb'_eq_self

@[simp] theorem rdField_dpImmShiftWord (op c sf rn rd shamt5 ty rm) :
    rdField (dpImmShiftWord op c sf rn rd shamt5 ty rm) = rd := by
  refine regIdx_of_bits ?_
  simp (disch := decide) only [dpImmShiftWord, BitVec.extractLsb'_append_eq_of_le,
    BitVec.extractLsb'_append_eq_of_add_le]
  exact BitVec.extractLsb'_eq_self

@[simp] theorem shamtField_dpImmShiftWord (op c sf rn rd shamt5 ty rm) :
    shamtField (dpImmShiftWord op c sf rn rd shamt5 ty rm) = shamt5 := by
  simp (disch := decide) only [shamtField, dpImmShiftWord, BitVec.extractLsb'_append_eq_of_le,
    BitVec.extractLsb'_append_eq_of_add_le]
  exact BitVec.extractLsb'_eq_self

@[simp] theorem typeBits_dpImmShiftWord (op c sf rn rd shamt5 ty rm) :
    typeBits (dpImmShiftWord op c sf rn rd shamt5 ty rm) = ty.toBits := by
  simp (disch := decide) only [typeBits, dpImmShiftWord, BitVec.extractLsb'_append_eq_of_le,
    BitVec.extractLsb'_append_eq_of_add_le]
  exact BitVec.extractLsb'_eq_self

@[simp] theorem rmField_dpImmShiftWord (op c sf rn rd shamt5 ty rm) :
    rmField (dpImmShiftWord op c sf rn rd shamt5 ty rm) = rm := by
  refine regIdx_of_bits ?_
  simp (disch := decide) only [dpImmShiftWord, BitVec.extractLsb'_append_eq_of_add_le]
  exact BitVec.extractLsb'_eq_self

@[simp] theorem sBit_dpImmShiftWord (op c sf rn rd shamt5 ty rm) : sBit (dpImmShiftWord op c sf rn rd shamt5 ty rm) = sf := by
  simp only [sBit, dpImmShiftWord, BitVec.getLsbD_append]
  cases sf <;> rfl

@[simp] theorem getLsbD_4_dpImmShiftWord (op c sf rn rd shamt5 ty rm) :
    (dpImmShiftWord op c sf rn rd shamt5 ty rm).getLsbD 4 = false := by
  simp only [dpImmShiftWord, BitVec.getLsbD_append]
  rfl

theorem catBits_dpImmShiftWord (op c sf rn rd shamt5 ty rm) :
    catBits (dpImmShiftWord op c sf rn rd shamt5 ty rm) = 0 ∨ catBits (dpImmShiftWord op c sf rn rd shamt5 ty rm) = 1 := by
  have h : ∀ i < 4, (catBits (dpImmShiftWord op c sf rn rd shamt5 ty rm)).getLsbD i =
      (if i = 0 then op.toBits.getLsbD 3 else (0b000#3).getLsbD (i - 1)) := by
    intro i hi
    simp only [catBits, dpImmShiftWord, BitVec.getLsbD_extractLsb', hi, decide_true, Bool.true_and]
    have : i = 0 ∨ i = 1 ∨ i = 2 ∨ i = 3 := by omega
    rcases this with rfl | rfl | rfl | rfl <;> simp only [BitVec.getLsbD_append] <;> rfl
  cases h3 : op.toBits.getLsbD 3 <;> rw [h3] at h
  · refine .inl (BitVec.eq_of_getLsbD_eq fun i hi => (h i hi).trans ?_)
    revert i
    decide
  · refine .inr (BitVec.eq_of_getLsbD_eq fun i hi => (h i hi).trans ?_)
    revert i
    decide

/-! ### `dpRegShiftWord` -/

@[simp] theorem condBits_dpRegShiftWord (op c sf rn rd rs ty rm) :
    condBits (dpRegShiftWord op c sf rn rd rs ty rm) = c.toBits := by
  simp (disch := decide) only [condBits, dpRegShiftWord, BitVec.extractLsb'_append_eq_of_le]
  exact BitVec.extractLsb'_eq_self

@[simp] theorem opcodeBits_dpRegShiftWord (op c sf rn rd rs ty rm) :
    opcodeBits (dpRegShiftWord op c sf rn rd rs ty rm) = op.toBits := by
  simp (disch := decide) only [opcodeBits, dpRegShiftWord, BitVec.extractLsb'_append_eq_of_le,
    BitVec.extractLsb'_append_eq_of_add_le]
  exact BitVec.extractLsb'_eq_self

@[simp] theorem rnField_dpRegShiftWord (op c sf rn rd rs ty rm) : rnField (dpRegShiftWord op c sf rn rd rs ty rm) = rn := by
  refine regIdx_of_bits ?_
  simp (disch := decide) only [dpRegShiftWord, BitVec.extractLsb'_append_eq_of_le,
    BitVec.extractLsb'_append_eq_of_add_le]
  exact BitVec.extractLsb'_eq_self

@[simp] theorem rdField_dpRegShiftWord (op c sf rn rd rs ty rm) : rdField (dpRegShiftWord op c sf rn rd rs ty rm) = rd := by
  refine regIdx_of_bits ?_
  simp (disch := decide) only [dpRegShiftWord, BitVec.extractLsb'_append_eq_of_le,
    BitVec.extractLsb'_append_eq_of_add_le]
  exact BitVec.extractLsb'_eq_self

@[simp] theorem rsField_dpRegShiftWord (op c sf rn rd rs ty rm) : rsField (dpRegShiftWord op c sf rn rd rs ty rm) = rs := by
  refine regIdx_of_bits ?_
  simp (disch := decide) only [dpRegShiftWord, BitVec.extractLsb'_append_eq_of_le,
    BitVec.extractLsb'_append_eq_of_add_le]
  exact BitVec.extractLsb'_eq_self

@[simp] theorem typeBits_dpRegShiftWord (op c sf rn rd rs ty rm) :
    typeBits (dpRegShiftWord op c sf rn rd rs ty rm) = ty.toBits := by
  simp (disch := decide) only [typeBits, dpRegShiftWord, BitVec.extractLsb'_append_eq_of_le,
    BitVec.extractLsb'_append_eq_of_add_le]
  exact BitVec.extractLsb'_eq_self

@[simp] theorem rmField_dpRegShiftWord (op c sf rn rd rs ty rm) : rmField (dpRegShiftWord op c sf rn rd rs ty rm) = rm := by
  refine regIdx_of_bits ?_
  simp (disch := decide) only [dpRegShiftWord, BitVec.extractLsb'_append_eq_of_add_le]
  exact BitVec.extractLsb'_eq_self

@[simp] theorem sBit_dpRegShiftWord (op c sf rn rd rs ty rm) : sBit (dpRegShiftWord op c sf rn rd rs ty rm) = sf := by
  simp only [sBit, dpRegShiftWord, BitVec.getLsbD_append]
  cases sf <;> rfl

@[simp] theorem getLsbD_4_dpRegShiftWord (op c sf rn rd rs ty rm) :
    (dpRegShiftWord op c sf rn rd rs ty rm).getLsbD 4 = true := by
  simp only [dpRegShiftWord, BitVec.getLsbD_append]
  rfl

@[simp] theorem getLsbD_7_dpRegShiftWord (op c sf rn rd rs ty rm) :
    (dpRegShiftWord op c sf rn rd rs ty rm).getLsbD 7 = false := by
  simp only [dpRegShiftWord, BitVec.getLsbD_append]
  rfl

theorem catBits_dpRegShiftWord (op c sf rn rd rs ty rm) :
    catBits (dpRegShiftWord op c sf rn rd rs ty rm) = 0 ∨ catBits (dpRegShiftWord op c sf rn rd rs ty rm) = 1 := by
  have h : ∀ i < 4, (catBits (dpRegShiftWord op c sf rn rd rs ty rm)).getLsbD i =
      (if i = 0 then op.toBits.getLsbD 3 else (0b000#3).getLsbD (i - 1)) := by
    intro i hi
    simp only [catBits, dpRegShiftWord, BitVec.getLsbD_extractLsb', hi, decide_true, Bool.true_and]
    have : i = 0 ∨ i = 1 ∨ i = 2 ∨ i = 3 := by omega
    rcases this with rfl | rfl | rfl | rfl <;> simp only [BitVec.getLsbD_append] <;> rfl
  cases h3 : op.toBits.getLsbD 3 <;> rw [h3] at h
  · refine .inl (BitVec.eq_of_getLsbD_eq fun i hi => (h i hi).trans ?_)
    revert i
    decide
  · refine .inr (BitVec.eq_of_getLsbD_eq fun i hi => (h i hi).trans ?_)
    revert i
    decide

/-! ### `bxWord` -/

@[simp] theorem condBits_bxWord (c rm) : condBits (bxWord c rm) = c.toBits := by
  simp (disch := decide) only [condBits, bxWord, BitVec.extractLsb'_append_eq_of_le]
  exact BitVec.extractLsb'_eq_self

@[simp] theorem rmField_bxWord (c rm) : rmField (bxWord c rm) = rm := by
  refine regIdx_of_bits ?_
  simp (disch := decide) only [bxWord, BitVec.extractLsb'_append_eq_of_add_le]
  exact BitVec.extractLsb'_eq_self

/-! ### `bodyWord` -/

@[simp] theorem condBits_bodyWord (c body) : condBits (bodyWord c body) = c.toBits := by
  simp (disch := decide) only [condBits, bodyWord, BitVec.extractLsb'_append_eq_of_le]
  exact BitVec.extractLsb'_eq_self

@[simp] theorem bodyBits_bodyWord (c body) : bodyBits (bodyWord c body) = body := by
  simp (disch := decide) only [bodyBits, bodyWord, BitVec.extractLsb'_append_eq_of_add_le]
  exact BitVec.extractLsb'_eq_self

/-! ### The class of an encoded data-processing instruction -/

/-- With S = 1 for the four tests, an encoded word is no PSR transfer (R89). -/
theorem isPsrTransfer_of_fields {w : Word} {op : Opcode} {sf : Bool} (ho : opcodeBits w = op.toBits) (hs : sBit w = sf)
    (ht : Machine.isTest op = true → sf = true) : isPsrTransfer w = false := by
  unfold isPsrTransfer
  rw [ho, hs]
  cases op <;> cases sf <;> first | rfl | exact absurd (ht rfl) (by decide)

/-- A BX word has the fields of TEQ with S = 0. -/
theorem isBxWord_of_fields {w : Word} {op : Opcode} {sf : Bool} (ho : opcodeBits w = op.toBits) (hs : sBit w = sf)
    (ht : Machine.isTest op = true → sf = true) : isBxWord w = false := by
  cases hb : isBxWord w
  · rfl
  · exfalso
    have h : w &&& 0x0FFFFFF0 = 0x012FFF10 := by simpa [isBxWord] using hb
    have bit (i : Nat) (hm : (0x0FFFFFF0#32).getLsbD i = true) : w.getLsbD i = (0x012FFF10#32).getLsbD i := by
      have := congrArg (fun v => v.getLsbD i) h
      simpa [hm] using this
    have h20 : sf = false := by rw [← hs]; exact bit 20 (by decide)
    have hop : opcodeBits w = 9 := by
      refine BitVec.eq_of_getLsbD_eq fun i hi => ?_
      simp only [opcodeBits, BitVec.getLsbD_extractLsb', hi, decide_true, Bool.true_and]
      rw [bit (21 + i) (by revert i; decide)]
      revert i; decide
    rw [ho] at hop
    subst h20
    cases op <;> first | exact absurd hop (by decide) | exact absurd (ht rfl) (by decide)

theorem classify_dpImmWord {op : Opcode} {sf : Bool} (ht : Machine.isTest op = true → sf = true) (c rn rd rot imm8) :
    classify (dpImmWord op c sf rn rd rot imm8) = .dpImm := by
  have hp := isPsrTransfer_of_fields (opcodeBits_dpImmWord op c sf rn rd rot imm8) (sBit_dpImmWord ..) ht
  unfold classify
  rcases catBits_dpImmWord op c sf rn rd rot imm8 with h | h <;> rw [h] <;> exact if_neg (by rw [hp]; decide)

theorem classify_dpImmShiftWord {op : Opcode} {sf : Bool} (ht : Machine.isTest op = true → sf = true) (c rn rd shamt5 ty rm) :
    classify (dpImmShiftWord op c sf rn rd shamt5 ty rm) = .dpRegImmShift := by
  have hp := isPsrTransfer_of_fields (opcodeBits_dpImmShiftWord op c sf rn rd shamt5 ty rm) (sBit_dpImmShiftWord ..) ht
  have hb := isBxWord_of_fields (opcodeBits_dpImmShiftWord op c sf rn rd shamt5 ty rm) (sBit_dpImmShiftWord ..) ht
  have h4 := getLsbD_4_dpImmShiftWord op c sf rn rd shamt5 ty rm
  have hr : classifyRegisterSpace (dpImmShiftWord op c sf rn rd shamt5 ty rm) = .dpRegImmShift := by
    unfold classifyRegisterSpace
    rw [if_pos (.inl h4), if_neg (by simp [hp]), if_pos h4]
  unfold classify
  rcases catBits_dpImmShiftWord op c sf rn rd shamt5 ty rm with h | h <;> rw [h]
  · exact hr
  · exact (if_neg (by rw [hb]; decide)).trans hr

theorem classify_dpRegShiftWord {op : Opcode} {sf : Bool} (ht : Machine.isTest op = true → sf = true) (c rn rd rs ty rm) :
    classify (dpRegShiftWord op c sf rn rd rs ty rm) = .dpRegRegShift := by
  have hp := isPsrTransfer_of_fields (opcodeBits_dpRegShiftWord op c sf rn rd rs ty rm) (sBit_dpRegShiftWord ..) ht
  have hb := isBxWord_of_fields (opcodeBits_dpRegShiftWord op c sf rn rd rs ty rm) (sBit_dpRegShiftWord ..) ht
  have h4 := getLsbD_4_dpRegShiftWord op c sf rn rd rs ty rm
  have h7 := getLsbD_7_dpRegShiftWord op c sf rn rd rs ty rm
  have hr : classifyRegisterSpace (dpRegShiftWord op c sf rn rd rs ty rm) = .dpRegRegShift := by
    unfold classifyRegisterSpace
    rw [if_pos (.inr h7), if_neg (by simp [hp]), if_neg (by simp [h4])]
  unfold classify
  rcases catBits_dpRegShiftWord op c sf rn rd rs ty rm with h | h <;> rw [h]
  · exact hr
  · exact (if_neg (by rw [hb]; decide)).trans hr

theorem classify_bxWord (c rm) : classify (bxWord c rm) = .bx := by
  have hc : catBits (bxWord c rm) = 1 := by
    have h : catBits (bxWord c rm) = (0x12FFF1#24).extractLsb' 20 4 := by
      refine BitVec.eq_of_getLsbD_eq fun i hi => ?_
      simp only [catBits, bxWord, BitVec.getLsbD_extractLsb', BitVec.getLsbD_append, hi, decide_true, Bool.true_and]
      split_ifs <;> first | omega | exact congrArg _ (by omega)
    rw [h]
    rfl
  have hb : isBxWord (bxWord c rm) = true := by
    have h : bxWord c rm &&& 0x0FFFFFF0 = 0x012FFF10 := by
      refine BitVec.eq_of_getLsbD_eq fun i hi => ?_
      have hlo : ∀ j < 4, (0x0FFFFFF0 : Word).getLsbD j = false ∧ (0x012FFF10 : Word).getLsbD j = false := by decide
      have hmid : ∀ j < 24, (0x0FFFFFF0 : Word).getLsbD (j + 4) = true ∧
          (0x012FFF10 : Word).getLsbD (j + 4) = (0x12FFF1#24).getLsbD j := by decide
      have hhi : ∀ j < 4, (0x0FFFFFF0 : Word).getLsbD (j + 28) = false ∧ (0x012FFF10 : Word).getLsbD (j + 28) = false := by decide
      simp only [bxWord, BitVec.getLsbD_and, BitVec.getLsbD_append]
      rcases Nat.lt_or_ge i 4 with h4 | h4
      · rw [(hlo i h4).1, (hlo i h4).2, Bool.and_false]
      · obtain ⟨j, rfl⟩ : ∃ j, i = j + 4 := ⟨i - 4, by omega⟩
        rcases Nat.lt_or_ge j 24 with h24 | h24
        · rw [(hmid j h24).1, (hmid j h24).2, Bool.and_true, if_neg (by omega), if_pos (by omega)]
          exact congrArg _ (by omega)
        · obtain ⟨k, rfl⟩ : ∃ k, j = k + 24 := ⟨j - 24, by omega⟩
          have hk := hhi k (by omega)
          rw [show k + 24 + 4 = k + 28 by omega, hk.1, hk.2, Bool.and_false]
    exact beq_iff_eq.mpr h
  unfold classify
  rw [hc]
  exact if_pos hb

/-! ### Instructions that carry bits -/

/-- The instruction of a row that carries bits. -/
def bodyInstr (row : Nat) (c : Cond) (body : BitVec 28) : Option Instr :=
  match row with
  | 2 => some (.psrRegBit4Clear c body)
  | 3 => some (.psrRegBit4Set c body)
  | 36 => some (.swp c body)
  | 37 => some (.mul c body)
  | 38 => some (.mull c body)
  | 39 => some (.htReg c body)
  | 40 => some (.htImm c body)
  | 41 => some (.undefExtension c body)
  | 42 => some (.psrImm c body)
  | 59 => some (.sdtImmPost c body)
  | 60 => some (.sdtImmPre c body)
  | 61 => some (.sdtRegPost c body)
  | 62 => some (.undefCat6 c body)
  | 63 => some (.sdtRegPre c body)
  | 64 => some (.undefCat7 c body)
  | 65 => some (.bdtPost c body)
  | 66 => some (.bdtPre c body)
  | 67 => some (.b c body)
  | 68 => some (.bl c body)
  | 69 => some (.cdtPost c body)
  | 70 => some (.cdtPre c body)
  | 71 => some (.cdo c body)
  | 72 => some (.crt c body)
  | 73 => some (.swi c body)
  | _ => none

/-- An instruction that carries bits is given by its row, its condition and its bits. -/
theorem bodyInstr_of_body? {i : Instr} {b : BitVec 28} (h : i.body? = some b) : bodyInstr i.row i.cond b = some i := by
  cases i <;> cases h <;> rfl

/-- An instruction that carries bits is encoded as its condition and its bits. -/
theorem encode_of_body? {i : Instr} {b : BitVec 28} (h : i.body? = some b) : encode i = bodyWord i.cond b := by
  cases i <;> cases h <;> rfl

/-- The bits a decoded instruction carries are the word's. -/
theorem decodeWord_body? {w : Word} {b : BitVec 28} (h : (decodeWord w).body? = some b) : b = bodyBits w := by
  rcases Machine.class_cases w with hd | hb | ⟨k, hk⟩ | hu
  · obtain ⟨o, ho⟩ := Machine.decodeWord_dp hd
    rw [ho] at h
    cases hop : Opcode.ofBits (opcodeBits w) <;> rw [hop] at h <;> cases o <;> cases h
  · rw [Machine.decodeWord_bx hb] at h
    cases h
  · rw [Machine.decodeWord_hook hk] at h
    cases k
    case psrReg => simp only [hookInstr] at h; split at h <;> cases h <;> rfl
    all_goals (cases h; rfl)
  · rw [Machine.decodeWord_undefined hu] at h
    simp only [undefinedInstr] at h
    split at h <;> cases h <;> rfl

/-! ### Instructions that carry no bits -/

/-- The word of a data-processing instruction, by its operand form. -/
def dpWord (op : Opcode) (c : Cond) (sf : Bool) (rn rd : RegIdx) (o : Operand2) : Word :=
  match o with
  | .imm rot imm8 => dpImmWord op c sf rn rd rot imm8
  | .immShift n ty rm => dpImmShiftWord op c sf rn rd n ty rm
  | .regShift rs ty rm => dpRegShiftWord op c sf rn rd rs ty rm

theorem encode_dp {op : Opcode} {sf : Bool} (ht : Machine.isTest op = true → sf = true) (c rn rd o) :
    encode (.dp op c sf rn rd o) = dpWord op c sf rn rd o := by
  cases op <;> first | (cases o <;> rfl) | (cases ht rfl; cases o <;> rfl)

/-- An instruction that carries no bits is BX or data processing, the four tests with S = 1. -/
theorem dp_or_bx_of_body? {i : Instr} (h : i.body? = none) :
    (∃ c rm, i = .bx c rm) ∨
      ∃ op c sf rn rd o, (Machine.isTest op = true → sf = true) ∧ i = .dp op c sf rn rd o := by
  cases i
  case bx c rm => exact .inl ⟨c, rm, rfl⟩
  case andImm c sf rn rd rot imm8 => exact .inr ⟨.and, c, sf, rn, rd, .imm rot imm8, nofun, rfl⟩
  case eorImm c sf rn rd rot imm8 => exact .inr ⟨.eor, c, sf, rn, rd, .imm rot imm8, nofun, rfl⟩
  case subImm c sf rn rd rot imm8 => exact .inr ⟨.sub, c, sf, rn, rd, .imm rot imm8, nofun, rfl⟩
  case rsbImm c sf rn rd rot imm8 => exact .inr ⟨.rsb, c, sf, rn, rd, .imm rot imm8, nofun, rfl⟩
  case addImm c sf rn rd rot imm8 => exact .inr ⟨.add, c, sf, rn, rd, .imm rot imm8, nofun, rfl⟩
  case adcImm c sf rn rd rot imm8 => exact .inr ⟨.adc, c, sf, rn, rd, .imm rot imm8, nofun, rfl⟩
  case sbcImm c sf rn rd rot imm8 => exact .inr ⟨.sbc, c, sf, rn, rd, .imm rot imm8, nofun, rfl⟩
  case rscImm c sf rn rd rot imm8 => exact .inr ⟨.rsc, c, sf, rn, rd, .imm rot imm8, nofun, rfl⟩
  case tstImm c rn rd rot imm8 => exact .inr ⟨.tst, c, true, rn, rd, .imm rot imm8, fun _ => rfl, rfl⟩
  case teqImm c rn rd rot imm8 => exact .inr ⟨.teq, c, true, rn, rd, .imm rot imm8, fun _ => rfl, rfl⟩
  case cmpImm c rn rd rot imm8 => exact .inr ⟨.cmp, c, true, rn, rd, .imm rot imm8, fun _ => rfl, rfl⟩
  case cmnImm c rn rd rot imm8 => exact .inr ⟨.cmn, c, true, rn, rd, .imm rot imm8, fun _ => rfl, rfl⟩
  case orrImm c sf rn rd rot imm8 => exact .inr ⟨.orr, c, sf, rn, rd, .imm rot imm8, nofun, rfl⟩
  case movImm c sf rn rd rot imm8 => exact .inr ⟨.mov, c, sf, rn, rd, .imm rot imm8, nofun, rfl⟩
  case bicImm c sf rn rd rot imm8 => exact .inr ⟨.bic, c, sf, rn, rd, .imm rot imm8, nofun, rfl⟩
  case mvnImm c sf rn rd rot imm8 => exact .inr ⟨.mvn, c, sf, rn, rd, .imm rot imm8, nofun, rfl⟩
  case andImmShift c sf rn rd n ty rm => exact .inr ⟨.and, c, sf, rn, rd, .immShift n ty rm, nofun, rfl⟩
  case eorImmShift c sf rn rd n ty rm => exact .inr ⟨.eor, c, sf, rn, rd, .immShift n ty rm, nofun, rfl⟩
  case subImmShift c sf rn rd n ty rm => exact .inr ⟨.sub, c, sf, rn, rd, .immShift n ty rm, nofun, rfl⟩
  case rsbImmShift c sf rn rd n ty rm => exact .inr ⟨.rsb, c, sf, rn, rd, .immShift n ty rm, nofun, rfl⟩
  case addImmShift c sf rn rd n ty rm => exact .inr ⟨.add, c, sf, rn, rd, .immShift n ty rm, nofun, rfl⟩
  case adcImmShift c sf rn rd n ty rm => exact .inr ⟨.adc, c, sf, rn, rd, .immShift n ty rm, nofun, rfl⟩
  case sbcImmShift c sf rn rd n ty rm => exact .inr ⟨.sbc, c, sf, rn, rd, .immShift n ty rm, nofun, rfl⟩
  case rscImmShift c sf rn rd n ty rm => exact .inr ⟨.rsc, c, sf, rn, rd, .immShift n ty rm, nofun, rfl⟩
  case tstImmShift c rn rd n ty rm => exact .inr ⟨.tst, c, true, rn, rd, .immShift n ty rm, fun _ => rfl, rfl⟩
  case teqImmShift c rn rd n ty rm => exact .inr ⟨.teq, c, true, rn, rd, .immShift n ty rm, fun _ => rfl, rfl⟩
  case cmpImmShift c rn rd n ty rm => exact .inr ⟨.cmp, c, true, rn, rd, .immShift n ty rm, fun _ => rfl, rfl⟩
  case cmnImmShift c rn rd n ty rm => exact .inr ⟨.cmn, c, true, rn, rd, .immShift n ty rm, fun _ => rfl, rfl⟩
  case orrImmShift c sf rn rd n ty rm => exact .inr ⟨.orr, c, sf, rn, rd, .immShift n ty rm, nofun, rfl⟩
  case movImmShift c sf rn rd n ty rm => exact .inr ⟨.mov, c, sf, rn, rd, .immShift n ty rm, nofun, rfl⟩
  case bicImmShift c sf rn rd n ty rm => exact .inr ⟨.bic, c, sf, rn, rd, .immShift n ty rm, nofun, rfl⟩
  case mvnImmShift c sf rn rd n ty rm => exact .inr ⟨.mvn, c, sf, rn, rd, .immShift n ty rm, nofun, rfl⟩
  case andRegShift c sf rn rd rs ty rm => exact .inr ⟨.and, c, sf, rn, rd, .regShift rs ty rm, nofun, rfl⟩
  case eorRegShift c sf rn rd rs ty rm => exact .inr ⟨.eor, c, sf, rn, rd, .regShift rs ty rm, nofun, rfl⟩
  case subRegShift c sf rn rd rs ty rm => exact .inr ⟨.sub, c, sf, rn, rd, .regShift rs ty rm, nofun, rfl⟩
  case rsbRegShift c sf rn rd rs ty rm => exact .inr ⟨.rsb, c, sf, rn, rd, .regShift rs ty rm, nofun, rfl⟩
  case addRegShift c sf rn rd rs ty rm => exact .inr ⟨.add, c, sf, rn, rd, .regShift rs ty rm, nofun, rfl⟩
  case adcRegShift c sf rn rd rs ty rm => exact .inr ⟨.adc, c, sf, rn, rd, .regShift rs ty rm, nofun, rfl⟩
  case sbcRegShift c sf rn rd rs ty rm => exact .inr ⟨.sbc, c, sf, rn, rd, .regShift rs ty rm, nofun, rfl⟩
  case rscRegShift c sf rn rd rs ty rm => exact .inr ⟨.rsc, c, sf, rn, rd, .regShift rs ty rm, nofun, rfl⟩
  case tstRegShift c rn rd rs ty rm => exact .inr ⟨.tst, c, true, rn, rd, .regShift rs ty rm, fun _ => rfl, rfl⟩
  case teqRegShift c rn rd rs ty rm => exact .inr ⟨.teq, c, true, rn, rd, .regShift rs ty rm, fun _ => rfl, rfl⟩
  case cmpRegShift c rn rd rs ty rm => exact .inr ⟨.cmp, c, true, rn, rd, .regShift rs ty rm, fun _ => rfl, rfl⟩
  case cmnRegShift c rn rd rs ty rm => exact .inr ⟨.cmn, c, true, rn, rd, .regShift rs ty rm, fun _ => rfl, rfl⟩
  case orrRegShift c sf rn rd rs ty rm => exact .inr ⟨.orr, c, sf, rn, rd, .regShift rs ty rm, nofun, rfl⟩
  case movRegShift c sf rn rd rs ty rm => exact .inr ⟨.mov, c, sf, rn, rd, .regShift rs ty rm, nofun, rfl⟩
  case bicRegShift c sf rn rd rs ty rm => exact .inr ⟨.bic, c, sf, rn, rd, .regShift rs ty rm, nofun, rfl⟩
  case mvnRegShift c sf rn rd rs ty rm => exact .inr ⟨.mvn, c, sf, rn, rd, .regShift rs ty rm, nofun, rfl⟩
  all_goals cases h

/-- Two bodies that agree under a mask that covers a row's mask are hit by that row alike. -/
theorem hits_congr {r : OpcodeRow} {k b b' : BitVec 28} (hm : r.mask &&& k = r.mask) (h : b &&& k = b' &&& k) :
    r.hits b = r.hits b' := by
  have e (x : BitVec 28) : x &&& r.mask = x &&& k &&& r.mask := by
    rw [BitVec.and_assoc, BitVec.and_comm k, hm]
  rw [OpcodeRow.hits, OpcodeRow.hits, e b, e b', h]

end Sys2Proof
end

