-- ==== Sys2Proof/Laws/Operands.lean ====
section
/-! SUPPORT. What the rotations and shifts of the second operand compute, said as bits or as numbers, and what the adder
yields, said as word arithmetic. -/

namespace Sys2Proof.Machine

/-! ### Rotations and shifts -/

/-- Bit k of a rotated word is bit k + n, modulo 32, of the word. -/
theorem ror32_bit (v : Word) {n k : Nat} (hn : n < 32) (hk : k < 32) :
    (ror32 v n).getLsbD k = v.getLsbD ((k + n) % 32) := by
  unfold ror32
  split
  · subst n; simp [Nat.mod_eq_of_lt hk]
  · simp only [BitVec.getLsbD_or, BitVec.getLsbD_ushiftRight, BitVec.getLsbD_shiftLeft]
    by_cases h : k + n < 32
    · rw [Nat.mod_eq_of_lt h]
      simp [hk, show k < 32 - n by omega, Nat.add_comm]
    · have e : (k + n) % 32 = k - (32 - n) := by omega
      rw [e]
      simp [hk, show ¬ k < 32 - n by omega, BitVec.getLsbD_of_ge v (n + k) (by omega)]

theorem sshiftRight_toInt (m : Word) (n : Nat) : (m.sshiftRight n).toInt = m.toInt / 2 ^ n := by
  rw [BitVec.toInt_sshiftRight, Int.shiftRight_eq_div_pow]
  rfl

/-- A shift by 31 fills with the sign, as every larger shift does. -/
theorem sshiftRight_31_toInt (m : Word) {a : Nat} (ha : 31 ≤ a) : (m.sshiftRight 31).toInt = m.toInt / 2 ^ a := by
  rw [sshiftRight_toInt]
  have h1 := BitVec.toInt_lt (x := m)
  have h2 := BitVec.le_toInt m
  have hp : (2 : Int) ^ 31 ≤ 2 ^ a := by exact_mod_cast Nat.pow_le_pow_right (by decide) ha
  by_cases h : 0 ≤ m.toInt
  · rw [Int.ediv_eq_zero_of_lt h (by simpa using h1), Int.ediv_eq_zero_of_lt h (by omega)]
  · have e (d : Int) (hd : 2 ^ 31 ≤ d) : m.toInt / d = -1 := by
      rw [Int.ediv_eq_iff_of_pos (by omega)]
      omega
    rw [e _ (by simp), e _ hp]

/-- RRX: the carry enters at the top (R151). -/
theorem rrx_toNat (m : Word) (c : Bool) : (rrx m c).toNat = c.toNat * 2 ^ 31 + m.toNat / 2 := by
  have h : rrx m c = BitVec.ofBool c ++ m.extractLsb' 1 31 := by
    refine BitVec.eq_of_getLsbD_eq fun i hi => ?_
    simp only [rrx, BitVec.getLsbD_or, BitVec.getLsbD_shiftLeft, BitVec.getLsbD_ushiftRight, BitVec.getLsbD_append,
      BitVec.getLsbD_extractLsb']
    by_cases h : i < 31
    · simp [h, hi]
    · have : i = 31 := by omega
      subst this
      simp
  rw [h]
  have := m.isLt
  show BitVec.toNat (w := 1 + 31) _ = _
  rw [BitVec.toNat_append, BitVec.extractLsb'_toNat, Nat.shiftLeft_eq, Nat.shiftRight_eq_div_pow]
  have e : m.toNat / 2 ^ 1 % 2 ^ 31 = m.toNat / 2 := by omega
  have hb : (BitVec.ofBool c).toNat = c.toNat := by cases c <;> rfl
  rw [e, hb, Nat.mul_comm, Nat.two_pow_add_eq_or_of_lt (by omega)]

theorem shiftAmount_eq (v : Word) : shiftAmount v = v.toNat % 256 := by
  simp [shiftAmount, BitVec.extractLsb'_toNat]

/-- The operand's value does not depend on S (R140, R157). -/
theorem operand2_value_flagless (o : Operand2) (sf : Bool) (s : State) :
    (operand2 o sf s).value = (operand2 o true s).value := by
  cases sf <;> cases o <;> rfl

/-! ### The adder -/

theorem addWithCarry_value (a b : Word) (c : Bool) : (addWithCarry a b c).value = a + b + (if c then 1 else 0) := by
  refine BitVec.eq_of_toNat_eq ?_
  cases c <;> simp [addWithCarry, BitVec.toNat_add]

/-- `a − b − (1 − c)` as word arithmetic (R173, R191). -/
theorem subWithCarry_value (a b : Word) (c : Bool) : (subWithCarry a b c).value = a - b - (if c then 0 else 1) := by
  rw [subWithCarry, addWithCarry_value]
  have hn : ~~~b = -b - 1#32 := by rw [BitVec.neg_eq_not_add]; simp
  cases c
  · show a + ~~~b + 0#32 = a - b - 1#32
    rw [hn, BitVec.add_zero, BitVec.sub_eq_add_neg a b, BitVec.sub_eq_add_neg, BitVec.sub_eq_add_neg, BitVec.add_assoc]
  · show a + ~~~b + 1#32 = a - b - 0#32
    rw [hn, BitVec.sub_zero, BitVec.add_assoc, BitVec.sub_add_cancel, BitVec.sub_eq_add_neg]

theorem not_toInt (b : Word) : (~~~b).toInt = -1 - b.toInt := by
  have := b.isLt
  rw [BitVec.toInt_eq_toNat_cond, BitVec.toInt_eq_toNat_cond, BitVec.toNat_not]
  split <;> split <;> omega

end Sys2Proof.Machine
end

