-- ==== Sys2Proof/Laws/PerInstr.lean ====
section
/-! SUPPORT. Families of facts made one instruction at a time. `CondField`: the encoder puts an instruction's condition into
bits 31 to 28 of its word (R71). -/

namespace Sys2Proof.Laws.CondField

/-- The condition field of the encoded word is the instruction's condition (R71). -/
def Statement (i : Instr) : Prop := Cond.ofBits (condBits (encode i)) = i.cond

/-- A word whose condition field is `c`'s bits has condition `c`. -/
theorem of_condBits {w : Word} {c : Cond} (h : condBits w = c.toBits) : Cond.ofBits (condBits w) = c := by
  rw [h, cond_roundtrip]

/-! ### One lemma per constructor -/

theorem bx (cond rm) : Statement (.bx cond rm) := of_condBits (condBits_bxWord ..)
theorem psrRegBit4Clear (cond body) : Statement (.psrRegBit4Clear cond body) := of_condBits (condBits_bodyWord ..)
theorem psrRegBit4Set (cond body) : Statement (.psrRegBit4Set cond body) := of_condBits (condBits_bodyWord ..)
theorem andImmShift (cond sf rn rd shamt5 ty rm) : Statement (.andImmShift cond sf rn rd shamt5 ty rm) := of_condBits (condBits_dpImmShiftWord ..)
theorem eorImmShift (cond sf rn rd shamt5 ty rm) : Statement (.eorImmShift cond sf rn rd shamt5 ty rm) := of_condBits (condBits_dpImmShiftWord ..)
theorem subImmShift (cond sf rn rd shamt5 ty rm) : Statement (.subImmShift cond sf rn rd shamt5 ty rm) := of_condBits (condBits_dpImmShiftWord ..)
theorem rsbImmShift (cond sf rn rd shamt5 ty rm) : Statement (.rsbImmShift cond sf rn rd shamt5 ty rm) := of_condBits (condBits_dpImmShiftWord ..)
theorem addImmShift (cond sf rn rd shamt5 ty rm) : Statement (.addImmShift cond sf rn rd shamt5 ty rm) := of_condBits (condBits_dpImmShiftWord ..)
theorem adcImmShift (cond sf rn rd shamt5 ty rm) : Statement (.adcImmShift cond sf rn rd shamt5 ty rm) := of_condBits (condBits_dpImmShiftWord ..)
theorem sbcImmShift (cond sf rn rd shamt5 ty rm) : Statement (.sbcImmShift cond sf rn rd shamt5 ty rm) := of_condBits (condBits_dpImmShiftWord ..)
theorem rscImmShift (cond sf rn rd shamt5 ty rm) : Statement (.rscImmShift cond sf rn rd shamt5 ty rm) := of_condBits (condBits_dpImmShiftWord ..)
theorem tstImmShift (cond rn rd shamt5 ty rm) : Statement (.tstImmShift cond rn rd shamt5 ty rm) := of_condBits (condBits_dpImmShiftWord ..)
theorem teqImmShift (cond rn rd shamt5 ty rm) : Statement (.teqImmShift cond rn rd shamt5 ty rm) := of_condBits (condBits_dpImmShiftWord ..)
theorem cmpImmShift (cond rn rd shamt5 ty rm) : Statement (.cmpImmShift cond rn rd shamt5 ty rm) := of_condBits (condBits_dpImmShiftWord ..)
theorem cmnImmShift (cond rn rd shamt5 ty rm) : Statement (.cmnImmShift cond rn rd shamt5 ty rm) := of_condBits (condBits_dpImmShiftWord ..)
theorem orrImmShift (cond sf rn rd shamt5 ty rm) : Statement (.orrImmShift cond sf rn rd shamt5 ty rm) := of_condBits (condBits_dpImmShiftWord ..)
theorem movImmShift (cond sf rn rd shamt5 ty rm) : Statement (.movImmShift cond sf rn rd shamt5 ty rm) := of_condBits (condBits_dpImmShiftWord ..)
theorem bicImmShift (cond sf rn rd shamt5 ty rm) : Statement (.bicImmShift cond sf rn rd shamt5 ty rm) := of_condBits (condBits_dpImmShiftWord ..)
theorem mvnImmShift (cond sf rn rd shamt5 ty rm) : Statement (.mvnImmShift cond sf rn rd shamt5 ty rm) := of_condBits (condBits_dpImmShiftWord ..)
theorem andRegShift (cond sf rn rd rs ty rm) : Statement (.andRegShift cond sf rn rd rs ty rm) := of_condBits (condBits_dpRegShiftWord ..)
theorem eorRegShift (cond sf rn rd rs ty rm) : Statement (.eorRegShift cond sf rn rd rs ty rm) := of_condBits (condBits_dpRegShiftWord ..)
theorem subRegShift (cond sf rn rd rs ty rm) : Statement (.subRegShift cond sf rn rd rs ty rm) := of_condBits (condBits_dpRegShiftWord ..)
theorem rsbRegShift (cond sf rn rd rs ty rm) : Statement (.rsbRegShift cond sf rn rd rs ty rm) := of_condBits (condBits_dpRegShiftWord ..)
theorem addRegShift (cond sf rn rd rs ty rm) : Statement (.addRegShift cond sf rn rd rs ty rm) := of_condBits (condBits_dpRegShiftWord ..)
theorem adcRegShift (cond sf rn rd rs ty rm) : Statement (.adcRegShift cond sf rn rd rs ty rm) := of_condBits (condBits_dpRegShiftWord ..)
theorem sbcRegShift (cond sf rn rd rs ty rm) : Statement (.sbcRegShift cond sf rn rd rs ty rm) := of_condBits (condBits_dpRegShiftWord ..)
theorem rscRegShift (cond sf rn rd rs ty rm) : Statement (.rscRegShift cond sf rn rd rs ty rm) := of_condBits (condBits_dpRegShiftWord ..)
theorem tstRegShift (cond rn rd rs ty rm) : Statement (.tstRegShift cond rn rd rs ty rm) := of_condBits (condBits_dpRegShiftWord ..)
theorem teqRegShift (cond rn rd rs ty rm) : Statement (.teqRegShift cond rn rd rs ty rm) := of_condBits (condBits_dpRegShiftWord ..)
theorem cmpRegShift (cond rn rd rs ty rm) : Statement (.cmpRegShift cond rn rd rs ty rm) := of_condBits (condBits_dpRegShiftWord ..)
theorem cmnRegShift (cond rn rd rs ty rm) : Statement (.cmnRegShift cond rn rd rs ty rm) := of_condBits (condBits_dpRegShiftWord ..)
theorem orrRegShift (cond sf rn rd rs ty rm) : Statement (.orrRegShift cond sf rn rd rs ty rm) := of_condBits (condBits_dpRegShiftWord ..)
theorem movRegShift (cond sf rn rd rs ty rm) : Statement (.movRegShift cond sf rn rd rs ty rm) := of_condBits (condBits_dpRegShiftWord ..)
theorem bicRegShift (cond sf rn rd rs ty rm) : Statement (.bicRegShift cond sf rn rd rs ty rm) := of_condBits (condBits_dpRegShiftWord ..)
theorem mvnRegShift (cond sf rn rd rs ty rm) : Statement (.mvnRegShift cond sf rn rd rs ty rm) := of_condBits (condBits_dpRegShiftWord ..)
theorem swp (cond body) : Statement (.swp cond body) := of_condBits (condBits_bodyWord ..)
theorem mul (cond body) : Statement (.mul cond body) := of_condBits (condBits_bodyWord ..)
theorem mull (cond body) : Statement (.mull cond body) := of_condBits (condBits_bodyWord ..)
theorem htReg (cond body) : Statement (.htReg cond body) := of_condBits (condBits_bodyWord ..)
theorem htImm (cond body) : Statement (.htImm cond body) := of_condBits (condBits_bodyWord ..)
theorem undefExtension (cond body) : Statement (.undefExtension cond body) := of_condBits (condBits_bodyWord ..)
theorem psrImm (cond body) : Statement (.psrImm cond body) := of_condBits (condBits_bodyWord ..)
theorem andImm (cond sf rn rd rot imm8) : Statement (.andImm cond sf rn rd rot imm8) := of_condBits (condBits_dpImmWord ..)
theorem eorImm (cond sf rn rd rot imm8) : Statement (.eorImm cond sf rn rd rot imm8) := of_condBits (condBits_dpImmWord ..)
theorem subImm (cond sf rn rd rot imm8) : Statement (.subImm cond sf rn rd rot imm8) := of_condBits (condBits_dpImmWord ..)
theorem rsbImm (cond sf rn rd rot imm8) : Statement (.rsbImm cond sf rn rd rot imm8) := of_condBits (condBits_dpImmWord ..)
theorem addImm (cond sf rn rd rot imm8) : Statement (.addImm cond sf rn rd rot imm8) := of_condBits (condBits_dpImmWord ..)
theorem adcImm (cond sf rn rd rot imm8) : Statement (.adcImm cond sf rn rd rot imm8) := of_condBits (condBits_dpImmWord ..)
theorem sbcImm (cond sf rn rd rot imm8) : Statement (.sbcImm cond sf rn rd rot imm8) := of_condBits (condBits_dpImmWord ..)
theorem rscImm (cond sf rn rd rot imm8) : Statement (.rscImm cond sf rn rd rot imm8) := of_condBits (condBits_dpImmWord ..)
theorem tstImm (cond rn rd rot imm8) : Statement (.tstImm cond rn rd rot imm8) := of_condBits (condBits_dpImmWord ..)
theorem teqImm (cond rn rd rot imm8) : Statement (.teqImm cond rn rd rot imm8) := of_condBits (condBits_dpImmWord ..)
theorem cmpImm (cond rn rd rot imm8) : Statement (.cmpImm cond rn rd rot imm8) := of_condBits (condBits_dpImmWord ..)
theorem cmnImm (cond rn rd rot imm8) : Statement (.cmnImm cond rn rd rot imm8) := of_condBits (condBits_dpImmWord ..)
theorem orrImm (cond sf rn rd rot imm8) : Statement (.orrImm cond sf rn rd rot imm8) := of_condBits (condBits_dpImmWord ..)
theorem movImm (cond sf rn rd rot imm8) : Statement (.movImm cond sf rn rd rot imm8) := of_condBits (condBits_dpImmWord ..)
theorem bicImm (cond sf rn rd rot imm8) : Statement (.bicImm cond sf rn rd rot imm8) := of_condBits (condBits_dpImmWord ..)
theorem mvnImm (cond sf rn rd rot imm8) : Statement (.mvnImm cond sf rn rd rot imm8) := of_condBits (condBits_dpImmWord ..)
theorem sdtImmPost (cond body) : Statement (.sdtImmPost cond body) := of_condBits (condBits_bodyWord ..)
theorem sdtImmPre (cond body) : Statement (.sdtImmPre cond body) := of_condBits (condBits_bodyWord ..)
theorem sdtRegPost (cond body) : Statement (.sdtRegPost cond body) := of_condBits (condBits_bodyWord ..)
theorem undefCat6 (cond body) : Statement (.undefCat6 cond body) := of_condBits (condBits_bodyWord ..)
theorem sdtRegPre (cond body) : Statement (.sdtRegPre cond body) := of_condBits (condBits_bodyWord ..)
theorem undefCat7 (cond body) : Statement (.undefCat7 cond body) := of_condBits (condBits_bodyWord ..)
theorem bdtPost (cond body) : Statement (.bdtPost cond body) := of_condBits (condBits_bodyWord ..)
theorem bdtPre (cond body) : Statement (.bdtPre cond body) := of_condBits (condBits_bodyWord ..)
theorem b (cond body) : Statement (.b cond body) := of_condBits (condBits_bodyWord ..)
theorem bl (cond body) : Statement (.bl cond body) := of_condBits (condBits_bodyWord ..)
theorem cdtPost (cond body) : Statement (.cdtPost cond body) := of_condBits (condBits_bodyWord ..)
theorem cdtPre (cond body) : Statement (.cdtPre cond body) := of_condBits (condBits_bodyWord ..)
theorem cdo (cond body) : Statement (.cdo cond body) := of_condBits (condBits_bodyWord ..)
theorem crt (cond body) : Statement (.crt cond body) := of_condBits (condBits_bodyWord ..)
theorem swi (cond body) : Statement (.swi cond body) := of_condBits (condBits_bodyWord ..)

end Sys2Proof.Laws.CondField
end

