-- ==== Sys2Proof/Tests/Slice0.lean ====
section
/-! SUPPORT. The model's own tests: ill-formed terms refused, every row decoded from a word written out from the spec's format
tables, one-step checks of the spec's worked examples, and a witness for every statement that has hypotheses. -/

namespace Sys2Proof.Tests

open Sys2Proof Sys2Proof.Machine Sys2Proof.Claims

/-! ### Helpers -/

/-- A state at pc 0x100 with the given registers and flags, T = 0, and a saved set N 1, Z 0, C 1, V 0, T 0. -/
def at100 (regs : List (Nat × Word)) (n z c v : Bool) : State where
  regs := regs.foldl (fun r p => r.setIfInBounds p.1 p.2) (Vector.replicate 15 0)
  pc := 0x100
  cpsr := ⟨n, z, c, v, false⟩
  spsr := ⟨true, false, true, false, false⟩
  code := []

/-- One step of `s` on the word `w` placed at its pc. -/
def run (w : Nat) (s : State) : Result := step (s.withFetchWord 32 w)

def stateOf : Result → Option State
  | .next s => some s
  | _ => none

def refusalOf : Result → Option Refusal
  | .refused r => some r
  | _ => none

def faultOf : Result → Option Fault
  | .fault f => some f
  | _ => none

/-- Register `i`, the flags N Z C V, and the pc after a step. -/
def view (i : Nat) (r : Result) : Option (Word × List Bool × Word) :=
  (stateOf r).map fun s => (s.regs.toList.getD i 0, [s.cpsr.n, s.cpsr.z, s.cpsr.c, s.cpsr.v], s.pc)

theorem next_of_stateOf {r : Result} {s : State} (h : stateOf r = some s) : r = .next s := by
  cases r <;> simp_all [stateOf]

theorem refused_of_refusalOf {r : Result} {q : Refusal} (h : refusalOf r = some q) : r = .refused q := by
  cases r <;> simp_all [refusalOf]

theorem fault_of_faultOf {r : Result} {f : Fault} (h : faultOf r = some f) : r = .fault f := by
  cases r <;> simp_all [faultOf]

/-! ### Well-formedness: one ill-formed term for each row that carries bits (R102)

Each term carries bits that an earlier row, or no row of its own, takes. -/

theorem test_ill_formed_refused :
    ([ .psrRegBit4Clear .al 0x1000010
     , .psrRegBit4Set .al 0x12FFF12
     , .swp .al 0x1410092
     , .mul .al 0x1010092
     , .mull .al 0x0000291
     , .htReg .al 0x0000090
     , .htImm .al 0x01100B2
     , .undefExtension .al 0x01100B2
     , .psrImm .al 0x3100001
     , .sdtImmPost .al 0x5910004
     , .sdtImmPre .al 0x4910004
     , .sdtRegPost .al 0x6910012
     , .undefCat6 .al 0x6910002
     , .sdtRegPre .al 0x7F000F0
     , .undefCat7 .al 0x7910002
     , .bdtPost .al 0x92D4000
     , .bdtPre .al 0x8BD8000
     , .b .al 0xB000000
     , .bl .al 0xAFFFFFE
     , .cdtPost .al 0xD910000
     , .cdtPre .al 0xC910000
     , .cdo .al 0xE010010
     , .crt .al 0xE010000
     , .swi .al 0xE010010 ] : List Instr).all
      (fun i => !i.wellFormed) = true := by decide

theorem test_well_formed_accepted :
    ([.swi .al 0xF000011, .htReg .al 0x01100B2, .undefExtension .nv 0x01101B2, .addImm .al true 15 15 15 255,
      .mvnRegShift .nv true 15 15 15 .ror 15] : List Instr).all (fun i => i.wellFormed) = true := by decide

/-! ### Decoding: a word for every constructor, field by field as the format tables of R72 to R75 lay them out -/

/-- `DP_IMM` (R72): cond 001 opcode S Rn Rd rot imm8. -/
theorem test_decode_dp_imm_a :
    [ decodeTableWord 32 0b1110_001_0000_0_0011_1111_0001_10000001
    , decodeTableWord 32 0b0011_001_0001_1_0100_1110_1000_10100110
    , decodeTableWord 32 0b1000_001_0010_0_0101_1101_1111_11001011
    , decodeTableWord 32 0b1101_001_0011_1_0110_1100_0110_11110000
    , decodeTableWord 32 0b0010_001_0100_0_0111_1011_1101_00010101
    , decodeTableWord 32 0b0111_001_0101_1_1000_1010_0100_00111010
    , decodeTableWord 32 0b1100_001_0110_0_1001_1001_1011_01011111
    , decodeTableWord 32 0b0001_001_0111_1_1010_1000_0010_10000100 ] =
    [ some (.andImm .al false 3 15 1 129)
    , some (.eorImm .cc true 4 14 8 166)
    , some (.subImm .hi false 5 13 15 203)
    , some (.rsbImm .le true 6 12 6 240)
    , some (.addImm .cs false 7 11 13 21)
    , some (.adcImm .vc true 8 10 4 58)
    , some (.sbcImm .gt false 9 9 11 95)
    , some (.rscImm .ne true 10 8 2 132) ] := by decide

/-- `DP_IMM` (R72): cond 001 opcode S Rn Rd rot imm8. -/
theorem test_decode_dp_imm_b :
    [ decodeTableWord 32 0b0110_001_1000_1_1011_0111_1001_10101001
    , decodeTableWord 32 0b1011_001_1001_1_1100_0110_0000_11001110
    , decodeTableWord 32 0b0000_001_1010_1_1101_0101_0111_11110011
    , decodeTableWord 32 0b0101_001_1011_1_1110_0100_1110_00011000
    , decodeTableWord 32 0b1010_001_1100_0_1111_0011_0101_00111101
    , decodeTableWord 32 0b1111_001_1101_1_0000_0010_1100_01100010
    , decodeTableWord 32 0b0100_001_1110_0_0001_0001_0011_10000111
    , decodeTableWord 32 0b1001_001_1111_1_0010_0000_1010_10101100 ] =
    [ some (.tstImm .vs 11 7 9 169)
    , some (.teqImm .lt 12 6 0 206)
    , some (.cmpImm .eq 13 5 7 243)
    , some (.cmnImm .pl 14 4 14 24)
    , some (.orrImm .ge false 15 3 5 61)
    , some (.movImm .nv true 0 2 12 98)
    , some (.bicImm .mi false 1 1 3 135)
    , some (.mvnImm .ls true 2 0 10 172) ] := by decide

/-- `DP_REG_IMMSHIFT` (R73): cond 000 opcode S Rn Rd shamt5 type 0 Rm. -/
theorem test_decode_dp_immshift_a :
    [ decodeTableWord 32 0b1110_000_0000_1_0000_1001_00001_00_0_1110
    , decodeTableWord 32 0b0001_000_0001_0_0011_1010_01100_01_0_1101
    , decodeTableWord 32 0b0100_000_0010_1_0110_1011_10111_10_0_1100
    , decodeTableWord 32 0b0111_000_0011_0_1001_1100_00010_11_0_1011
    , decodeTableWord 32 0b1010_000_0100_1_1100_1101_01101_00_0_1010
    , decodeTableWord 32 0b1101_000_0101_0_1111_1110_11000_01_0_1001
    , decodeTableWord 32 0b0000_000_0110_1_0010_1111_00011_10_0_1000
    , decodeTableWord 32 0b0011_000_0111_0_0101_0000_01110_11_0_0111 ] =
    [ some (.andImmShift .al true 0 9 1 .lsl 14)
    , some (.eorImmShift .ne false 3 10 12 .lsr 13)
    , some (.subImmShift .mi true 6 11 23 .asr 12)
    , some (.rsbImmShift .vc false 9 12 2 .ror 11)
    , some (.addImmShift .ge true 12 13 13 .lsl 10)
    , some (.adcImmShift .le false 15 14 24 .lsr 9)
    , some (.sbcImmShift .eq true 2 15 3 .asr 8)
    , some (.rscImmShift .cc false 5 0 14 .ror 7) ] := by decide

/-- `DP_REG_IMMSHIFT` (R73): cond 000 opcode S Rn Rd shamt5 type 0 Rm. -/
theorem test_decode_dp_immshift_b :
    [ decodeTableWord 32 0b0110_000_1000_1_1000_0001_11001_00_0_0110
    , decodeTableWord 32 0b1001_000_1001_1_1011_0010_00100_01_0_0101
    , decodeTableWord 32 0b1100_000_1010_1_1110_0011_01111_10_0_0100
    , decodeTableWord 32 0b1111_000_1011_1_0001_0100_11010_11_0_0011
    , decodeTableWord 32 0b0010_000_1100_1_0100_0101_00101_00_0_0010
    , decodeTableWord 32 0b0101_000_1101_0_0111_0110_10000_01_0_0001
    , decodeTableWord 32 0b1000_000_1110_1_1010_0111_11011_10_0_0000
    , decodeTableWord 32 0b1011_000_1111_0_1101_1000_00110_11_0_1111 ] =
    [ some (.tstImmShift .vs 8 1 25 .lsl 6)
    , some (.teqImmShift .ls 11 2 4 .lsr 5)
    , some (.cmpImmShift .gt 14 3 15 .asr 4)
    , some (.cmnImmShift .nv 1 4 26 .ror 3)
    , some (.orrImmShift .cs true 4 5 5 .lsl 2)
    , some (.movImmShift .pl false 7 6 16 .lsr 1)
    , some (.bicImmShift .hi true 10 7 27 .asr 0)
    , some (.mvnImmShift .lt false 13 8 6 .ror 15) ] := by decide

/-- `DP_REG_REGSHIFT` (R74): cond 000 opcode S Rn Rd Rs 0 type 1 Rm. -/
theorem test_decode_dp_regshift_a :
    [ decodeTableWord 32 0b1110_000_0000_0_0001_0010_1011_0_01_1_1111
    , decodeTableWord 32 0b0101_000_0001_1_0110_0011_1100_0_10_1_1110
    , decodeTableWord 32 0b1100_000_0010_0_1011_0100_1101_0_11_1_1101
    , decodeTableWord 32 0b0011_000_0011_1_0000_0101_1110_0_00_1_1100
    , decodeTableWord 32 0b1010_000_0100_0_0101_0110_1111_0_01_1_1011
    , decodeTableWord 32 0b0001_000_0101_1_1010_0111_0000_0_10_1_1010
    , decodeTableWord 32 0b1000_000_0110_0_1111_1000_0001_0_11_1_1001
    , decodeTableWord 32 0b1111_000_0111_1_0100_1001_0010_0_00_1_1000 ] =
    [ some (.andRegShift .al false 1 2 11 .lsr 15)
    , some (.eorRegShift .pl true 6 3 12 .asr 14)
    , some (.subRegShift .gt false 11 4 13 .ror 13)
    , some (.rsbRegShift .cc true 0 5 14 .lsl 12)
    , some (.addRegShift .ge false 5 6 15 .lsr 11)
    , some (.adcRegShift .ne true 10 7 0 .asr 10)
    , some (.sbcRegShift .hi false 15 8 1 .ror 9)
    , some (.rscRegShift .nv true 4 9 2 .lsl 8) ] := by decide

/-- `DP_REG_REGSHIFT` (R74): cond 000 opcode S Rn Rd Rs 0 type 1 Rm. -/
theorem test_decode_dp_regshift_b :
    [ decodeTableWord 32 0b0110_000_1000_1_1001_1010_0011_0_01_1_0111
    , decodeTableWord 32 0b1101_000_1001_1_1110_1011_0100_0_10_1_0110
    , decodeTableWord 32 0b0100_000_1010_1_0011_1100_0101_0_11_1_0101
    , decodeTableWord 32 0b1011_000_1011_1_1000_1101_0110_0_00_1_0100
    , decodeTableWord 32 0b0010_000_1100_0_1101_1110_0111_0_01_1_0011
    , decodeTableWord 32 0b1001_000_1101_1_0010_1111_1000_0_10_1_0010
    , decodeTableWord 32 0b0000_000_1110_0_0111_0000_1001_0_11_1_0001
    , decodeTableWord 32 0b0111_000_1111_1_1100_0001_1010_0_00_1_0000 ] =
    [ some (.tstRegShift .vs 9 10 3 .lsr 7)
    , some (.teqRegShift .le 14 11 4 .asr 6)
    , some (.cmpRegShift .mi 3 12 5 .ror 5)
    , some (.cmnRegShift .lt 8 13 6 .lsl 4)
    , some (.orrRegShift .cs false 13 14 7 .lsr 3)
    , some (.movRegShift .ls true 2 15 8 .asr 2)
    , some (.bicRegShift .eq false 7 0 9 .ror 1)
    , some (.mvnRegShift .vc true 12 1 10 .lsl 0) ] := by decide

/-- Words and classes of 95_test_vectors.md section 2.3, categories 0x0 to 0x3. -/
theorem test_decode_bx_and_low_hooks :
    [ decodeTableWord 32 0xE12FFF12
    , decodeTableWord 32 0xE12FFF02
    , decodeTableWord 32 0xE16F0F11
    , decodeTableWord 32 0xE328F00A
    , decodeTableWord 32 0xE0230291
    , decodeTableWord 32 0xE12FFF92
    , decodeTableWord 32 0xE1810092
    , decodeTableWord 32 0xE10100B2
    , decodeTableWord 32 0xE19100B2
    , decodeTableWord 32 0xE1410092
    , decodeTableWord 32 0xE19101F2 ] =
    [ some (.bx .al 2)
    , some (.psrRegBit4Clear .al 0x12FFF02)
    , some (.psrRegBit4Set .al 0x16F0F11)
    , some (.psrImm .al 0x328F00A)
    , some (.mul .al 0x0230291)
    , some (.mul .al 0x12FFF92)
    , some (.mull .al 0x1810092)
    , some (.swp .al 0x10100B2)
    , some (.htReg .al 0x19100B2)
    , some (.htImm .al 0x1410092)
    , some (.undefExtension .al 0x19101F2) ] := by decide

/-- Words and classes of 95_test_vectors.md section 2.3, categories 0x4 to 0xF. -/
theorem test_decode_high_hooks :
    [ decodeTableWord 32 0xE4910004
    , decodeTableWord 32 0xE5910004
    , decodeTableWord 32 0xE6910002
    , decodeTableWord 32 0xE6910012
    , decodeTableWord 32 0xE7910002
    , decodeTableWord 32 0xE7F000F0
    , decodeTableWord 32 0xE8BD8000
    , decodeTableWord 32 0xE92D4000
    , decodeTableWord 32 0xEAFFFFFE
    , decodeTableWord 32 0xEB000000
    , decodeTableWord 32 0xEC910000
    , decodeTableWord 32 0xED910000
    , decodeTableWord 32 0xEE010000
    , decodeTableWord 32 0xEE010010
    , decodeTableWord 32 0xFFFFFFFF ] =
    [ some (.sdtImmPost .al 0x4910004)
    , some (.sdtImmPre .al 0x5910004)
    , some (.sdtRegPost .al 0x6910002)
    , some (.undefCat6 .al 0x6910012)
    , some (.sdtRegPre .al 0x7910002)
    , some (.undefCat7 .al 0x7F000F0)
    , some (.bdtPost .al 0x8BD8000)
    , some (.bdtPre .al 0x92D4000)
    , some (.b .al 0xAFFFFFE)
    , some (.bl .al 0xB000000)
    , some (.cdtPost .al 0xC910000)
    , some (.cdtPre .al 0xD910000)
    , some (.cdo .al 0xE010000)
    , some (.crt .al 0xE010010)
    , some (.swi .nv 0xFFFFFFF) ] := by decide

/-- Fewer than four bytes are no instruction, and a word has at most 32 bits (R70). -/
theorem test_decode_rejects :
    (match decode [0x01, 0x00, 0x80] with | .error e => some e | .ok _ => none) = some (.truncated 3) ∧
      decodeTableWord 40 0xE2800001 = none := by decide

/-- The bytes of the document's example, then one more (R52, R79). -/
theorem test_decode_bytes :
    (match decode [0x01, 0x00, 0x80, 0xE2, 0x77] with | .ok r => some r | .error _ => none) =
      some (.addImm .al false 0 0 0 1, [0x77]) := by decide

/-! ### Fetch (95_test_vectors.md section 2.1) -/

theorem test_fetch_aligned :
    memRead [(0x100, 0x78), (0x101, 0x56), (0x102, 0x34), (0x103, 0x12)] 0x100 4 = 0x12345678#32 := by decide

theorem test_fetch_misaligned :
    memRead [(0x101, 0x01), (0x103, 0x80), (0x104, 0xE2)] 0x101 4 = 0xE2800001#32 := by decide

theorem test_fetch_wraps :
    memRead [(0, 0x80), (1, 0xE2), (0xFFFFFFFE, 0x01)] 0xFFFFFFFE 4 = 0xE2800001#32 := by decide

/-! ### The condition evaluator: the table of 95_test_vectors.md section 2.2

Row `n z c v` counts up from 0000; a digit is the column's entry, EQ first. -/

def truthTable : List (List Nat) :=
  [ [0, 1, 0, 1, 0, 1, 0, 1, 0, 1, 1, 0, 1, 0, 1, 0]
  , [0, 1, 0, 1, 0, 1, 1, 0, 0, 1, 0, 1, 0, 1, 1, 0]
  , [0, 1, 1, 0, 0, 1, 0, 1, 1, 0, 1, 0, 1, 0, 1, 0]
  , [0, 1, 1, 0, 0, 1, 1, 0, 1, 0, 0, 1, 0, 1, 1, 0]
  , [1, 0, 0, 1, 0, 1, 0, 1, 0, 1, 1, 0, 0, 1, 1, 0]
  , [1, 0, 0, 1, 0, 1, 1, 0, 0, 1, 0, 1, 0, 1, 1, 0]
  , [1, 0, 1, 0, 0, 1, 0, 1, 0, 1, 1, 0, 0, 1, 1, 0]
  , [1, 0, 1, 0, 0, 1, 1, 0, 0, 1, 0, 1, 0, 1, 1, 0]
  , [0, 1, 0, 1, 1, 0, 0, 1, 0, 1, 0, 1, 0, 1, 1, 0]
  , [0, 1, 0, 1, 1, 0, 1, 0, 0, 1, 1, 0, 1, 0, 1, 0]
  , [0, 1, 1, 0, 1, 0, 0, 1, 1, 0, 0, 1, 0, 1, 1, 0]
  , [0, 1, 1, 0, 1, 0, 1, 0, 1, 0, 1, 0, 1, 0, 1, 0]
  , [1, 0, 0, 1, 1, 0, 0, 1, 0, 1, 0, 1, 0, 1, 1, 0]
  , [1, 0, 0, 1, 1, 0, 1, 0, 0, 1, 1, 0, 0, 1, 1, 0]
  , [1, 0, 1, 0, 1, 0, 0, 1, 0, 1, 0, 1, 0, 1, 1, 0]
  , [1, 0, 1, 0, 1, 0, 1, 0, 0, 1, 1, 0, 0, 1, 1, 0] ]

theorem test_truth_table :
    (List.range 16).all (fun f => (List.range 16).all fun c =>
      (condPass (.ofBits (BitVec.ofNat 4 c)) ⟨f.testBit 3, f.testBit 2, f.testBit 1, f.testBit 0, false⟩).toNat ==
        (truthTable.getD f []).getD c 2) = true := by decide

/-! ### One step: the worked examples of the rules -/

/-- R174: flags unchanged with S = 0. -/
theorem test_and :
    view 0 (run 0xE0010002 (at100 [(1, 0xff00ff00), (2, 0xff00ff0)] true false true false)) =
      some (0xf000f00, [true, false, true, false], 0x104) := by decide

/-- R174, R141: C from the rotation. -/
theorem test_ands_rotated :
    view 0 (run 0xE21104FF (at100 [(1, 0x12345678)] false false false false)) =
      some (0x12000000, [false, false, true, false], 0x104) := by decide

/-- R175: C and V unchanged. -/
theorem test_eors :
    view 0 (run 0xE0310001 (at100 [(1, 0xdeadbeef)] false false true true)) =
      some (0x0, [false, true, true, true], 0x104) := by decide

/-- R176. -/
theorem test_subs_borrow :
    view 0 (run 0xE0510002 (at100 [(1, 0x5), (2, 0x7)] false false false false)) =
      some (0xfffffffe, [true, false, false, false], 0x104) := by decide

/-- R176. -/
theorem test_subs_overflow :
    view 0 (run 0xE0510002 (at100 [(1, 0x80000000), (2, 0x1)] false false false false)) =
      some (0x7fffffff, [false, false, true, true], 0x104) := by decide

/-- R177. -/
theorem test_rsbs :
    view 0 (run 0xE2710000 (at100 [(1, 0x1)] false false false false)) =
      some (0xffffffff, [true, false, false, false], 0x104) := by decide

/-- R177. -/
theorem test_rsbs_overflow :
    view 0 (run 0xE2710000 (at100 [(1, 0x80000000)] false false false false)) =
      some (0x80000000, [true, false, false, true], 0x104) := by decide

/-- R178. -/
theorem test_adds :
    view 0 (run 0xE0910002 (at100 [(1, 0x7fffffff), (2, 0x1)] false false false false)) =
      some (0x80000000, [true, false, false, true], 0x104) := by decide

/-- R178: flags unchanged with S = 0. -/
theorem test_add_wraps :
    view 0 (run 0xE0810002 (at100 [(1, 0xffffffff), (2, 0x2)] true false false true)) =
      some (0x1, [true, false, false, true], 0x104) := by decide

/-- R179. -/
theorem test_adcs :
    view 0 (run 0xE0B10002 (at100 [(1, 0xffffffff), (2, 0x0)] false false true false)) =
      some (0x0, [false, true, true, false], 0x104) := by decide

/-- R179: the carry of the rotation is not added. -/
theorem test_adcs_carry_before_rotation :
    view 0 (run 0xE2B10102 (at100 [(1, 0x1)] false false false false)) =
      some (0x80000001, [true, false, false, false], 0x104) := by decide

/-- R180. -/
theorem test_sbcs :
    view 0 (run 0xE0D10002 (at100 [(1, 0x5), (2, 0x5)] false false false false)) =
      some (0xffffffff, [true, false, false, false], 0x104) := by decide

/-- R180. -/
theorem test_sbcs_all_ones :
    view 0 (run 0xE0D10002 (at100 [(1, 0x0), (2, 0xffffffff)] false false false false)) =
      some (0x0, [false, true, false, false], 0x104) := by decide

/-- R181. -/
theorem test_rscs :
    view 0 (run 0xE0F10002 (at100 [(1, 0x3), (2, 0xa)] false false false false)) =
      some (0x6, [false, false, true, false], 0x104) := by decide

/-- R181. -/
theorem test_rscs_carry :
    view 0 (run 0xE0F10002 (at100 [(1, 0x3), (2, 0xa)] false false true false)) =
      some (0x7, [false, false, true, false], 0x104) := by decide

/-- R182. -/
theorem test_tst :
    view 0 (run 0xE3110001 (at100 [(0, 0xaaaa5555), (1, 0x2)] false false true true)) =
      some (0xaaaa5555, [false, true, true, true], 0x104) := by decide

/-- R182: no branch and no restore with Rd = 15. -/
theorem test_tst_rd15 :
    view 1 (run 0xE311F001 (at100 [(1, 0x1)] false false false false)) =
      some (0x1, [false, false, false, false], 0x104) := by decide

/-- R183. -/
theorem test_teq :
    view 1 (run 0xE1310002 (at100 [(1, 0x80000000)] false false true true)) =
      some (0x80000000, [true, false, true, true], 0x104) := by decide

/-- R184. -/
theorem test_cmp :
    view 0 (run 0xE1510002 (at100 [(1, 0x0), (2, 0x1)] false false false false)) =
      some (0x0, [true, false, false, false], 0x104) := by decide

/-- R184: only the flags and the pc with Rd = 15. -/
theorem test_cmp_rd15 :
    view 0 (run 0xE151F002 (at100 [(1, 0x5), (2, 0x5)] false false false false)) =
      some (0x0, [false, true, true, false], 0x104) := by decide

/-- R185. -/
theorem test_cmn :
    view 0 (run 0xE1710002 (at100 [(1, 0x1), (2, 0xffffffff)] false false false false)) =
      some (0x0, [false, true, true, false], 0x104) := by decide

/-- R186. -/
theorem test_orrs :
    view 0 (run 0xE1910002 (at100 [(1, 0x80000000), (2, 0x1)] false false true false)) =
      some (0x80000001, [true, false, true, false], 0x104) := by decide

/-- R187. -/
theorem test_mov :
    view 0 (run 0xE1A00002 (at100 [(2, 0x1234)] true true true true)) =
      some (0x1234, [true, true, true, true], 0x104) := by decide

/-- R187: C unchanged without rotation. -/
theorem test_movs_immediate :
    view 0 (run 0xE3B00000 (at100 [] true false true true)) =
      some (0x0, [false, true, true, true], 0x104) := by decide

/-- R188. -/
theorem test_bic :
    view 0 (run 0xE3C100FF (at100 [(1, 0x12345678)] false false false false)) =
      some (0x12345600, [false, false, false, false], 0x104) := by decide

/-- R189. -/
theorem test_mvns :
    view 0 (run 0xE3F00000 (at100 [] false false false false)) =
      some (0xffffffff, [true, false, false, false], 0x104) := by decide

/-- R156: the register form leaves C alone. -/
theorem test_movs_register_no_carry :
    view 0 (run 0xE1B00081 (at100 [(1, 0x80000000)] false false false false)) =
      some (0x0, [false, true, false, false], 0x104) := by decide

/-- R151: RRX takes in C and does not write it. -/
theorem test_movs_rrx :
    view 0 (run 0xE1B00061 (at100 [(1, 0x3)] false false true false)) =
      some (0x80000001, [true, false, true, false], 0x104) := by decide

/-- R193: two-bit mask. -/
theorem test_mov_pc :
    view 0 (run 0xE1A0F000 (at100 [(0, 0x1003)] false false false false)) =
      some (0x1003, [false, false, false, false], 0x1000) := by decide

/-- R136. -/
theorem test_add_pc_pc :
    view 0 (run 0xE28FF008 (at100 [] false false false false)) =
      some (0x0, [false, false, false, false], 0x10c) := by decide

/-- R132: the saved set is restored. -/
theorem test_movs_pc :
    view 14 (run 0xE1B0F00E (at100 [(14, 0x2002)] false false false false)) =
      some (0x2002, [true, false, true, false], 0x2000) := by decide

/-- R210 (b): both low bits cleared in ARM state. -/
theorem test_bx_even :
    view 2 (run 0xE12FFF12 (at100 [(2, 0x202)] false true false true)) =
      some (0x202, [false, true, false, true], 0x200) := by decide

/-- 95_test_vectors.md section 2.2: EQ fails. -/
theorem test_condition_fails :
    view 0 (run 0x03A00001 (at100 [] false false false false)) =
      some (0x0, [false, false, false, false], 0x104) := by decide

/-- R115. -/
theorem test_nv_never_passes :
    view 0 (run 0xF3A00001 (at100 [] true true true true)) =
      some (0x0, [true, true, true, true], 0x104) := by decide

/-- R210 (a): an odd target enters T = 1 with bit 0 cleared, and the next step is refused (R110). -/
theorem test_bx_odd :
    (stateOf (run 0xE12FFF12 (at100 [(2, 0x201)] false false false false))).map
        (fun s => (s.pc, s.cpsr.t, refusalOf (step s))) = some (0x200, true, some .thumbState) := by decide

/-- R132 (b): a return to T = 1 clears one bit of the target. -/
theorem test_movs_pc_to_thumb :
    (stateOf (run 0xE1B0F00E { at100 [(14, 0x2003)] false false false false with spsr := ⟨false, true, false, true, true⟩ })).map
        (fun s => (s.pc, s.cpsr)) = some (0x2002, ⟨false, true, false, true, true⟩) := by decide

/-- Every hooked class by its word (95_test_vectors.md sections 2.3 and 5.3). -/
theorem test_hook_outcomes :
    [0xE10F0000, 0xE1200070, 0xE3000001, 0xE0000291, 0xE0C10392, 0xE1010092, 0xE01100B2, 0xE05100B2, 0xE4910004, 0xE5910004,
        0xE6910002, 0xE7910002, 0xE8BD8000, 0xE92D4000, 0xEAFFFFFE, 0xEB000000, 0xEC910000, 0xED910000, 0xEE010000, 0xEE010010,
        0xEF000011].map (fun w => refusalOf (run w (at100 [] false false false false))) =
      [some (.hook .psrReg 0xE10F0000), some (.hook .psrReg 0xE1200070), some (.hook .psrImm 0xE3000001),
        some (.hook .mul 0xE0000291), some (.hook .mull 0xE0C10392), some (.hook .swp 0xE1010092),
        some (.hook .htReg 0xE01100B2), some (.hook .htImm 0xE05100B2), some (.hook .sdtImmPost 0xE4910004),
        some (.hook .sdtImmPre 0xE5910004), some (.hook .sdtRegPost 0xE6910002), some (.hook .sdtRegPre 0xE7910002),
        some (.hook .bdtPost 0xE8BD8000), some (.hook .bdtPre 0xE92D4000), some (.hook .b 0xEAFFFFFE),
        some (.hook .bl 0xEB000000), some (.hook .cdtPost 0xEC910000), some (.hook .cdtPre 0xED910000),
        some (.hook .cdo 0xEE010000), some (.hook .crt 0xEE010010), some (.hook .swi 0xEF000011)] := by decide

/-- The three `UNDEFINED` rows (R98, R240). -/
theorem test_undefined_outcomes :
    [0xE01101B2, 0xE6910012, 0xE7F000F0].map (fun w => faultOf (run w (at100 [] false false false false))) =
      [some (.undefined 0xE01101B2), some (.undefined 0xE6910012), some (.undefined 0xE7F000F0)] := by decide

/-- A hooked word and an undefined word whose condition fails are skipped (R111). -/
theorem test_failing_hook_and_undefined :
    [0x0F000011, 0x06910012].map (fun w => view 0 (run w (at100 [] false false false false))) =
      [some (0, [false, false, false, false], 0x104), some (0, [false, false, false, false], 0x104)] := by decide

/-! ### The second operand -/

/-- R140: the document's example and the two extremes. -/
theorem test_rotated_immediates :
    [immValue 4 0xFF, immValue 1 0x02, immValue 15 0xFF, immValue 0 0xFF] = [0xFF000000, 0x80000000, 0x3FC, 0xFF] := by decide

/-- R145 to R148, R151. -/
theorem test_shift_immediate :
    [shiftImm .lsl 4 0xF false, shiftImm .lsl 31 3 false, shiftImm .lsr 0 0x80000001 false, shiftImm .lsr 31 0x80000000 false,
      shiftImm .asr 0 0x80000000 false, shiftImm .asr 0 0x7FFFFFFF false, shiftImm .asr 4 0xFFFFFF00 false,
      shiftImm .ror 8 0xFF false, shiftImm .ror 0 3 true, shiftImm .ror 0 0xFFFFFFFF false] =
    [0xF0, 0x80000000, 0, 1, 0xFFFFFFFF, 0, 0xFFFFFFF0, 0xFF000000, 0x80000001, 0x7FFFFFFF] := by decide

/-- R152 to R155. -/
theorem test_shift_register :
    [shiftReg .lsl 31 1, shiftReg .lsl 32 1, shiftReg .lsl 255 1, shiftReg .lsl 0 1, shiftReg .lsr 31 0x80000000,
      shiftReg .lsr 32 0x80000000, shiftReg .lsr 0 0x80000000, shiftReg .asr 4 0x80000000, shiftReg .asr 40 0x80000000,
      shiftReg .asr 200 0x40000000, shiftReg .ror 4 0xF0, shiftReg .ror 36 0xF0, shiftReg .ror 32 0xF0, shiftReg .ror 0 0xF0] =
    [0x80000000, 0, 0, 1, 1, 0, 0x80000000, 0xF8000000, 0xFFFFFFFF, 0, 0xF, 0xF, 0, 0] := by decide

/-- The setting of R155 that the spec names and does not choose. -/
theorem test_rotate_without_quirk : shiftRegWith false .ror 32 0xF0 = 0xF0 ∧ shiftRegWith false .ror 0 0xF0 = 0xF0 := by decide

/-- The setting `arm` of R156, table GK6: LSL 1, LSR 32, RRX; LSL 32, LSL 33, ASR 40, ROR 64. -/
theorem test_arm_carry :
    [armCarryImm .lsl 1 0x80000000 false, armCarryImm .lsr 0 0x80000000 false, armCarryImm .ror 0 1 false,
      armCarryReg .lsl 32 1 false, armCarryReg .lsl 33 1 false, armCarryReg .asr 40 0x80000000 false,
      armCarryReg .ror 64 0x80000000 false] = [true, true, true, true, false, true, true] := by decide

/-! ### Reset (R45, R260) -/

theorem test_reset_is_sound : Sound State.reset := by
  unfold Sound
  decide

theorem test_first_step_after_reset :
    view 0 (step (State.reset.withFetchWord 32 0xE3A000FF)) = some (0xFF, [false, false, false, false], 4) := by decide

/-! ### Witnesses: each statement's hypotheses are met together, case by case

`witness_<Name>` is for the hypotheses of `Obligations.<Name>`. -/

/-- A state at pc 0x100 with all flags clear and the word `w` placed at its pc. -/
def holding (w : Nat) : State := (at100 [(0, 0x1003), (1, 5), (2, 0x201), (14, 0x2002)] false false false false).withFetchWord 32 w

theorem witness_DecodeOfEncodeIsTheInstruction :
    (Instr.swi .nv 0xFFFFFFF).WellFormed ∧ (Instr.htReg .al 0x19100B2).WellFormed ∧
      (Instr.movRegShift .al true 15 15 15 .ror 15).WellFormed := by decide

/-- One pair of ordinary words and one pair of BX words. -/
theorem witness_ClassDependsOnlyOnTheKeyBits :
    [((0xE0810002 : Word), (0x10830005 : Word)), (0xE12FFF12, 0x012FFF1F)].all (fun p =>
      p.1 != p.2 && p.1.extractLsb' 20 8 == p.2.extractLsb' 20 8 && p.1.extractLsb' 4 8 == p.2.extractLsb' 4 8 &&
        decide (p.1.extractLsb' 8 12 = 0xFFF ↔ p.2.extractLsb' 8 12 = 0xFFF)) = true := by decide

/-- Both directions of each equivalence are met by some word. -/
theorem witness_UndefinedAndPsrWords :
    [0xE01101B2, 0xE19101F2, 0xE6910012, 0xE7F000F0, 0xE12FFF02, 0xE1200070, 0xE328F00A, 0xE12FFF12, 0xE3100001].map
        (fun w => classify w) =
      [.undefined, .undefined, .undefined, .undefined, .hook .psrReg, .hook .psrReg, .hook .psrImm, .bx, .dpImm] := by decide

theorem witness_StepRunsTheDecodedInstruction :
    let s := holding 0xE2800001
    s.cpsr.t = false ∧
      decode [readByte s.code s.pc, readByte s.code (s.pc + 1), readByte s.code (s.pc + 2), readByte s.code (s.pc + 3)]
        = .ok (.addImm .al false 0 0 0 1, []) := ⟨by decide, rfl⟩

theorem witness_PlacedWordIsTheNextStep : (at100 [] false false false false).code.wf ∧ (holding 0xE2800001).code.wf := by
  decide

theorem witness_ThumbRefusalExactlyWhenModeSet :
    refusalOf (step { holding 0xE2800001 with cpsr := ⟨false, false, false, false, true⟩ }) = some .thumbState ∧
      refusalOf (step (holding 0xE2800001)) = none := by decide

theorem witness_FailingConditionSkipsAnyWord :
    [0x0F000011, 0x06910012, 0x03A00001, 0xF3A00001].all (fun w =>
      !(holding w).cpsr.t && !condPass (.ofBits ((fetch (holding w)).extractLsb' 28 4)) (holding w).cpsr) = true := by decide

theorem witness_EveryRowRetiresWhenItsConditionFails :
    condPass (Instr.cond (.swi .eq 0xF000011)) (holding 0).cpsr = false ∧
      condPass (Instr.cond (.addImm .nv true 0 0 0 1)) (holding 0).cpsr = false := by decide

/-- One word for each clause: data processing, BX, a hook, `UNDEFINED`. -/
theorem witness_StepOutcomeIsDecidedByTheClass :
    [0xE2800001, 0xE12FFF12, 0xEF000011, 0xE7F000F0].all (fun w =>
        !(holding w).cpsr.t && condPass (.ofBits ((fetch (holding w)).extractLsb' 28 4)) (holding w).cpsr) = true ∧
      [0xE2800001, 0xE12FFF12, 0xEF000011, 0xE7F000F0].map (fun w => classify (fetch (holding w))) =
        [.dpImm, .bx, .hook .swi, .undefined] := by decide

/-- One instruction of each of the 21 hook rows. -/
theorem witness_HookRowsStopWithClassAndWord :
    ([.psrRegBit4Clear .al 0x12FFF02, .psrRegBit4Set .al 0x16F0F11, .psrImm .al 0x328F00A, .mul .al 0x0230291,
      .mull .al 0x1810092, .swp .al 0x10100B2, .htReg .al 0x19100B2, .htImm .al 0x1410092, .sdtImmPost .al 0x4910004,
      .sdtImmPre .al 0x5910004, .sdtRegPost .al 0x6910002, .sdtRegPre .al 0x7910002, .bdtPost .al 0x8BD8000,
      .bdtPre .al 0x92D4000, .b .al 0xAFFFFFE, .bl .al 0xB000000, .cdtPost .al 0xC910000, .cdtPre .al 0xD910000,
      .cdo .al 0xE010000, .crt .al 0xE010010, .swi .al 0xF000011] : List Instr).map
        (fun i => (i.wellFormed && condPass i.cond (holding 0).cpsr, classify (encode i))) =
      [HookClass.psrReg, .psrReg, .psrImm, .mul, .mull, .swp, .htReg, .htImm, .sdtImmPost, .sdtImmPre, .sdtRegPost, .sdtRegPre,
        .bdtPost, .bdtPre, .b, .bl, .cdtPost, .cdtPre, .cdo, .crt, .swi].map (fun k => (true, .hook k)) := by decide

theorem witness_UndefinedRowsStopWithTheWord :
    ([.undefExtension .al 0x19101F2, .undefCat6 .al 0x6910012, .undefCat7 .al 0x7F000F0] : List Instr).map
        (fun i => (i.wellFormed && condPass i.cond (holding 0).cpsr, classify (encode i))) =
      [(true, .undefined), (true, .undefined), (true, .undefined)] := by decide

/-- Signed and unsigned order disagree (0x80000000 with 1), equal operands, and signed overflow (0x7FFFFFFF with 0x80000000). -/
theorem witness_CompareThenConditionsReadTheOrder :
    let s := at100 [(1, 0x80000000), (2, 1), (3, 0x7FFFFFFF)] false false false false
    condPass .al s.cpsr = true ∧
      [(1, 2), (2, 2), (3, 1)].map (fun p : RegIdx × RegIdx =>
        (stateOf (exec (.dp .cmp .al true p.1 0 (.immShift 0 .lsl p.2)) s)).map fun t =>
          [condPass .hi t.cpsr, condPass .lt t.cpsr, condPass .eq t.cpsr, condPass .gt t.cpsr]) =
      [some [true, true, false, false], some [false, false, true, false], some [false, false, false, true]] := by decide

/-- Rotation 0 and the largest rotation, with S = 1 and with S = 0. -/
theorem witness_ImmediateOperandValueAndCarry :
    (operand2 (.imm 0 0x80) true (holding 0)) = ⟨0x80, none⟩ ∧
      (operand2 (.imm 15 0xFF) true (holding 0)) = ⟨0x3FC, some false⟩ ∧
      (operand2 (.imm 1 2) true (holding 0)) = ⟨0x80000000, some true⟩ ∧
      (operand2 (.imm 1 2) false (holding 0)) = ⟨0x80000000, none⟩ := by decide

/-- Amounts 0, 1 and 31. -/
theorem witness_ImmediateShiftValue :
    let s := at100 [(1, 0x80000001)] false false true false
    [operand2 (.immShift 0 .ror 1) true s, operand2 (.immShift 1 .ror 1) false s, operand2 (.immShift 31 .ror 1) true s,
        operand2 (.immShift 0 .lsr 1) true s, operand2 (.immShift 31 .lsr 1) true s, operand2 (.immShift 0 .asr 1) false s,
        operand2 (.immShift 0 .lsl 1) true s, operand2 (.immShift 1 .lsl 1) false s,
        operand2 (.immShift 31 .lsl 1) true s].map (·.value) =
      [0xC0000000, 0xC0000000, 3, 0, 1, 0xFFFFFFFF, 0x80000001, 2, 0x80000000] := by decide

/-- Amounts 0, 31, 32 and 255, the register holding more than the low byte. -/
theorem witness_RegisterShiftValue :
    let s := at100 [(1, 0x80000001), (2, 0x100), (3, 0x11F), (4, 32), (5, 0xFFFFFFFF)] false false false false
    [operand2 (.regShift 2 .lsl 1) true s, operand2 (.regShift 3 .lsl 1) false s, operand2 (.regShift 4 .lsl 1) false s,
        operand2 (.regShift 2 .lsr 1) false s, operand2 (.regShift 3 .lsr 1) true s, operand2 (.regShift 4 .lsr 1) true s,
        operand2 (.regShift 2 .asr 1) true s, operand2 (.regShift 3 .asr 1) true s, operand2 (.regShift 5 .asr 1) false s].map
          (·.value) =
      [0x80000001, 0x80000000, 0, 0x80000001, 1, 0, 0x80000001, 0xFFFFFFFF, 0xFFFFFFFF] := by decide

/-- Amounts 0, 31, 32, 33 and 255 of ROR. -/
theorem witness_RotateByRegisterValue :
    let s := at100 [(1, 0x80000001), (2, 0x100), (3, 0x11F), (4, 32), (5, 33), (6, 0xFFFFFFFF)] false false false false
    [operand2 (.regShift 2 .ror 1) true s, operand2 (.regShift 3 .ror 1) true s, operand2 (.regShift 4 .ror 1) true s,
        operand2 (.regShift 5 .ror 1) false s, operand2 (.regShift 6 .ror 1) false s].map (·.value) =
      [0, 3, 0, 0xC0000000, 3] := by decide

theorem witness_BitwiseOpcodesResult : condPass .al (holding 0).cpsr = true ∧ condPass .ne (holding 0).cpsr = true := by decide

theorem witness_MoveOpcodesResult : condPass .al (holding 0).cpsr = true ∧ condPass .pl (holding 0).cpsr = true := by decide

theorem witness_AdditionOpcodesResult : condPass .al (holding 0).cpsr = true ∧ condPass .cc (holding 0).cpsr = true := by decide

theorem witness_SubtractionOpcodesResult : condPass .al (holding 0).cpsr = true ∧ condPass .vc (holding 0).cpsr = true := by
  decide

theorem witness_BitTestOpcodesResult : condPass .al (holding 0).cpsr = true ∧ condPass .ge (holding 0).cpsr = true := by decide

theorem witness_CompareOpcodesResult : condPass .al (holding 0).cpsr = true ∧ condPass .gt (holding 0).cpsr = true := by decide

/-- A store, a return from exception, a plain branch, a test with Rd = 15, and a skipped instruction all retire. -/
theorem witness_DataProcessingFrame :
    ([.dp .orr .al false 1 0 (.imm 0 1), .dp .mov .al true 0 15 (.immShift 0 .lsl 14), .dp .mov .al false 0 15 (.immShift 0 .lsl 0),
      .dp .teq .al true 1 15 (.regShift 2 .lsr 1), .dp .add .eq true 1 0 (.imm 0 1)] : List Instr).all
        (fun i => (stateOf (exec i (holding 0))).isSome) = true := by decide

theorem witness_ResultDoesNotDependOnS :
    isTest .mvn = false ∧ (14 : RegIdx).val < 15 ∧ condPass .al (holding 0).cpsr = true := by decide

theorem witness_ExceptionReturnRestoresStatusAndBranches :
    isTest .sub = false ∧ condPass .al (holding 0).cpsr = true ∧ (14 : RegIdx).val < 15 := by decide

theorem witness_PcWriteWithoutSIsAPlainBranch :
    isTest .add = false ∧ condPass .ne (holding 0).cpsr = true ∧ (0 : RegIdx).val < 15 := by decide

theorem witness_EveryOperandPositionReadsPcPlusFour :
    let s := at100 [(14, 0x104)] false false false false
    s.regs[(14 : RegIdx).val]'(by decide) = s.pc + 4 := by decide

theorem witness_AddImmediateToPcBranchesRelative : condPass .al (holding 0).cpsr = true := by decide

theorem witness_EqualIndicesComputeFromTheOldValue : (14 : RegIdx).val < 15 ∧ condPass .al (holding 0).cpsr = true := by decide

theorem witness_BranchExchangeResult :
    condPass .al (holding 0).cpsr = true ∧ (regRead 2 (holding 0)).toNat % 2 = 1 ∧ (regRead 14 (holding 0)).toNat % 2 = 0 := by
  decide

/-- `MOV r14, #1` changes register 14. -/
theorem witness_OnlyRdOfADataProcessingWordChanges :
    ∃ t, step (holding 0xE3A0E001) = .next t ∧ t.regs[14] ≠ (holding 0xE3A0E001).regs[14] :=
  ⟨{ holding 0xE3A0E001 with regs := (holding 0).regs.set 14 1, pc := 0x104 }, next_of_stateOf (by decide), by decide⟩

/-- `MOVS r0, #0` sets Z. -/
theorem witness_FlagsChangeOnlyUnderS :
    let s := holding 0xE3B00000
    ∃ t, step s = .next t ∧ { t.cpsr with t := s.cpsr.t } ≠ s.cpsr :=
  ⟨{ holding 0xE3B00000 with regs := (holding 0).regs.set 0 0, pc := 0x104, cpsr := ⟨false, true, false, false, false⟩ },
    next_of_stateOf (by decide), by decide⟩

/-- BX to an odd address, and a return that restores T = 1. -/
theorem witness_ModeChangesOnlyByBxOrReturn :
    (∃ t, step (holding 0xE12FFF12) = .next t ∧ t.cpsr.t ≠ (holding 0xE12FFF12).cpsr.t) ∧
      let s := { holding 0xE1B0F00E with spsr := ⟨false, false, false, false, true⟩ }
      ∃ t, step s = .next t ∧ t.cpsr.t ≠ s.cpsr.t :=
  ⟨⟨{ holding 0xE12FFF12 with pc := 0x200, cpsr := ⟨false, false, false, false, true⟩ }, next_of_stateOf (by decide), by decide⟩,
    ⟨{ holding 0xE1B0F00E with
        pc := 0x2002, cpsr := ⟨false, false, false, false, true⟩, spsr := ⟨false, false, false, false, true⟩ },
      next_of_stateOf (by decide), by decide⟩⟩

/-- BX, and `MOV pc, r0`. -/
theorem witness_PcAdvancesUnlessBxOrPcWrite :
    [0xE12FFF12, 0xE1A0F000].map (fun w => (stateOf (step (holding w))).map (fun t => decide (t.pc ≠ (holding w).pc + 4))) =
      [some true, some true] := by decide

theorem witness_NoRunChangesSavedStatusOrCode : (stateOf (runSteps 1 (holding 0xE1B0F00E))).isSome = true := by decide

/-- One state for each row of R241's table that can occur: an undefined word, SWI, another hook, T = 1. -/
theorem witness_StopsAreExactlyTheListedEvents :
    faultOf (step (holding 0xE7F000F0)) = some (.undefined 0xE7F000F0) ∧
      refusalOf (step (holding 0xEF000011)) = some (.hook .swi 0xEF000011) ∧
      refusalOf (step (holding 0xEAFFFFFE)) = some (.hook .b 0xEAFFFFFE) ∧
      refusalOf (step { holding 0xE2800001 with cpsr := ⟨false, false, false, false, true⟩ }) = some .thumbState := by decide

theorem witness_SavedStatusIsReadOnlyByTheReturn : ¬ isExceptionReturn (fetch (holding 0xE1A0F000)) := by
  unfold isExceptionReturn
  rintro ⟨-, h⟩
  exact absurd h (by decide)

/-- A store that differs from the state's at an address the fetch does not read. -/
theorem witness_CodeStoreIsReadOnlyByFetch :
    let s := holding 0xE3A00001
    let m := s.code.write 0x2000 7
    m ≠ s.code ∧ ∀ k < 4, readByte m (s.pc + BitVec.ofNat 32 k) = readByte s.code (s.pc + BitVec.ofNat 32 k) := by decide

theorem witness_EveryStepKeepsSoundness :
    Sound (holding 0xE12FFF12) ∧ (stateOf (step (holding 0xE12FFF12))).isSome = true := by
  unfold Sound
  decide

/-- The model's own parameters, and the highest legal `RESET_PC` with other contents. -/
theorem witness_LaunchIsSoundAndFetchesAtResetPc :
    Launch.default.ok ∧
      Launch.ok { Launch.default with resetPc := 0xFFFFFFFC, initN := true, code := [(0xFFFFFFFF, 0xE2)] } := by decide

theorem witness_ReachableArmStatePcIsAligned :
    let p := { Launch.default with resetPc := 0xFFFFFFFC, code := [(0xFFFFFFFE, 0xA0), (0xFFFFFFFF, 0xE3)] }
    p.ok ∧ (stateOf (runSteps 1 (State.launch p))).map (fun t => (t.cpsr.t, t.pc)) = some (false, 0) := by decide

/-- `MOV r0, #1` at 0x100: a run to 0x104 ends there within one step, and a run to 0x100 before its first step. -/
theorem witness_RunEndsAtTheFirstStopAddress :
    [(0x104, 1), (0x104, 5), (0x100, 0)].map (fun p : Word × Nat =>
        match runUntil p.1 p.2 (holding 0xE3A00001) with | .stopAddress t => some t.pc | _ => none) =
      [some 0x104, some 0x104, some 0x100] := by decide

/-- A run whose first step is an undefined word, one whose first step is a hook, and one whose second step is refused for T = 1. -/
theorem witness_RunEndsAtTheFirstStepThatDoesNotRetire :
    (match runUntil 0x104 1 (holding 0xE7F000F0) with | .fault f t => some (f, t.pc) | _ => none) =
        some (.undefined 0xE7F000F0, 0x100) ∧
      (match runUntil 0x104 1 (holding 0xEF000011) with | .refusal r t => some (r, t.pc) | _ => none) =
        some (.hook .swi 0xEF000011, 0x100) ∧
      (match runUntil 0x104 2 (holding 0xE12FFF12) with | .refusal r t => some (r, t.pc) | _ => none) =
        some (.thumbState, 0x200) := by decide

end Sys2Proof.Tests
end

section
/-! The statements of 10_state.md: what a step keeps and what it leaves unchanged. The lemmas come first, then the proofs that
settle the statements. -/

namespace Sys2Proof.Machine

open Sys2Proof.Claims

/-! ### The alignment of the pc -/

/-- The pc half of `Sound`: a multiple of 2 in T = 1, of 4 in T = 0 (R25, R132, R210). -/
def PcAligned (t : Bool) (pc : Word) : Prop := if t then pc.toNat % 2 = 0 else pc.toNat % 4 = 0

theorem sound_iff (s : State) : Sound s ↔ PcAligned s.cpsr.t s.pc ∧ s.code.wf := Iff.rfl

theorem pcAligned_alignFor (t : Bool) (v : Word) : PcAligned t (alignFor t v) := by
  cases t
  · show (alignWord v).toNat % 4 = 0
    rw [alignWord_toNat, Nat.mul_mod_left]
  · show (alignHalf v).toNat % 2 = 0
    rw [alignHalf_toNat, Nat.mul_mod_left]

theorem pcAligned_arm_add_four {pc : Word} (h : PcAligned false pc) : PcAligned false (pc + 4) := by
  have h4 : pc.toNat % 4 = 0 := h
  show (pc + 4).toNat % 4 = 0
  rw [BitVec.toNat_add]
  show (pc.toNat + 4) % 2 ^ 32 % 4 = 0
  omega

theorem pcAligned_arm_low_bits {pc : Word} (h : PcAligned false pc) : pc.extractLsb' 0 2 = 0 := by
  have h4 : pc.toNat % 4 = 0 := h
  refine BitVec.eq_of_toNat_eq ?_
  simpa using h4

/-! ### Flag setting under S

A data-processing word sets the flags only when S = 1; these say what that choice leaves in each field. -/

section
variable (sf : Bool) (alu : Word → Word → Bool → AluResult) (rn : RegIdx) (o : Operand2) (s : State)

@[simp] theorem flagsUnderS_regs : (if sf then dpSetFlags alu rn o s else s).regs = s.regs := by cases sf <;> rfl
@[simp] theorem flagsUnderS_pc : (if sf then dpSetFlags alu rn o s else s).pc = s.pc := by cases sf <;> rfl
@[simp] theorem flagsUnderS_spsr : (if sf then dpSetFlags alu rn o s else s).spsr = s.spsr := by cases sf <;> rfl
@[simp] theorem flagsUnderS_code : (if sf then dpSetFlags alu rn o s else s).code = s.code := by cases sf <;> rfl
@[simp] theorem flagsUnderS_t : (if sf then dpSetFlags alu rn o s else s).cpsr.t = s.cpsr.t := by cases sf <;> simp

end

/-! ### What every step keeps -/

theorem step_keeps_spsr_and_code {s t : State} (h : step s = .next t) : t.spsr = s.spsr ∧ t.code = s.code := by
  cases step_next h with
  | skip _ ht | store _ _ _ _ _ _ _ ht | branch _ _ _ _ ht | exceptionReturn _ _ _ ht | test _ _ _ _ _ _ ht
  | exchange _ _ _ ht => subst ht; simp

/-- The pc after a retired step: sequential in the mode the step began with, T = 0, or masked for the mode it ends in. -/
theorem step_keeps_pcAligned {s t : State} (hs : PcAligned s.cpsr.t s.pc) (h : step s = .next t) :
    PcAligned t.cpsr.t t.pc := by
  have harm := arm_of_step_next h
  rw [harm] at hs
  have hnext := pcAligned_arm_add_four hs
  cases step_next h with
  | skip _ ht | store _ _ _ _ _ _ _ ht | test _ _ _ _ _ _ ht => subst ht; simpa [harm] using hnext
  | branch _ _ _ v ht => subst ht; exact harm ▸ pcAligned_alignFor false v
  | exceptionReturn _ _ v ht => subst ht; exact pcAligned_alignFor s.spsr.t v
  | exchange _ _ v ht => subst ht; exact pcAligned_alignFor (v.getLsbD 0) v

theorem step_keeps_sound {s t : State} (hs : Sound s) (h : step s = .next t) : Sound t := by
  obtain ⟨hpc, hcode⟩ := (sound_iff s).1 hs
  obtain ⟨-, hsame⟩ := step_keeps_spsr_and_code h
  exact (sound_iff t).2 ⟨step_keeps_pcAligned hpc h, hsame ▸ hcode⟩

/-! ### Runs -/

/-- A run of `k + 1` retired steps is one retired step and a run of `k`. -/
theorem runSteps_succ_next {k : Nat} {s t : State} :
    runSteps (k + 1) s = .next t ↔ ∃ u, step s = .next u ∧ runSteps k u = .next t := by
  cases h : step s <;> simp [runSteps, h]

/-- What every retired step keeps, a run of retired steps keeps. -/
theorem runSteps_keeps {P : State → Prop} (hstep : ∀ {s t}, P s → step s = .next t → P t) {k : Nat} {s t : State}
    (hs : P s) (h : runSteps k s = .next t) : P t := by
  induction k generalizing s with
  | zero =>
    cases h
    exact hs
  | succ k ih =>
    obtain ⟨u, hu, h⟩ := runSteps_succ_next.1 h
    exact ih (hstep hs hu) h

/-! ### Launch -/

theorem launch_sound {p : Launch} (hp : p.ok) : Sound (State.launch p) := hp

theorem launchDefault_ok : Launch.default.ok := ⟨rfl, Memory.wf_nil⟩

/-! ### Every way a data-processing instruction retires -/

/-- What a data-processing instruction can do when it retires (R170, R190). -/
inductive DpEffect (op : Opcode) (c : Cond) (sf : Bool) (rn rd : RegIdx) (o : Operand2) (s t : State) : Prop where
  /-- The condition failed. -/
  | skip (hc : condPass c s.cpsr = false) (ht : t = advance s)
  /-- A writing opcode stored its Rd. -/
  | store (hop : isTest op = false) (hi : rd.val < 15) (v : Word)
      (ht : t = advance (storeReg rd.val hi v (if sf then dpSetFlags (aluOf op) rn o s else s)))
  /-- A writing opcode with S = 0 wrote register 15. -/
  | branch (v : Word) (ht : t = { s with pc := alignWord v })
  /-- A writing opcode with S = 1 wrote register 15. -/
  | exceptionReturn (hr : isTest op = false ∧ sf = true ∧ rd = 15 ∧ condPass c s.cpsr = true) (v : Word)
      (ht : t = { s with pc := alignFor s.spsr.t v, cpsr := s.spsr })
  /-- A test set the flags. -/
  | test (hop : isTest op = true) (ht : t = advance (dpSetFlags (aluOf op) rn o s))

/-- The inversion of a data-processing instruction. -/
theorem exec_dp_next {op : Opcode} {c : Cond} {sf : Bool} {rn rd : RegIdx} {o : Operand2} {s t : State}
    (h : exec (.dp op c sf rn rd o) s = .next t) : DpEffect op c sf rn rd o s t := by
  cases hop : isTest op
  · rw [exec_dp_write hop] at h
    rcases dataProcess_next h with ⟨hc, ht⟩ | ⟨hc, ⟨hi, v, ht⟩ | ⟨-, -, v, ht⟩ | ⟨hrd, hs, v, ht⟩⟩
    · exact .skip hc ht
    · exact .store hop hi v ht
    · exact .branch v ht
    · exact .exceptionReturn ⟨hop, hs, hrd, hc⟩ v ht
  · rw [exec_dp_test hop] at h
    rcases dataTest_next h with ⟨hc, ht⟩ | ⟨-, ht⟩
    · exact .skip hc ht
    · exact .test hop ht

/-! ### The flags of the logical opcodes -/

theorem dpStatus_v_of_logical {r : AluResult} (hr : r.arith = none) (shifterC : Option Bool) (f : Status) :
    (dpStatus shifterC r f).v = f.v := by
  cases shifterC <;> simp [dpStatus, hr]

theorem dpStatus_c_of_logical {r : AluResult} (hr : r.arith = none) (f : Status) : (dpStatus none r f).c = f.c := by
  simp [dpStatus, hr]

/-- A logical opcode yields no carry and no overflow of its own (R192). -/
theorem dpAlu_arith_of_logical {op : Opcode} (hop : isLogical op = true) (sf : Bool) (rn : RegIdx) (o : Operand2)
    (s : State) : (dpAlu (aluOf op) sf rn o s).arith = none := by
  cases op with
  | and | eor | tst | teq | orr | mov | bic | mvn => rfl
  | sub | rsb | add | adc | sbc | rsc | cmp | cmn => contradiction

/-- The register-operand forms have no carry-out (R156). -/
theorem operand2_carry_of_register {o : Operand2} (ho : ∀ rot imm8, o ≠ .imm rot imm8) (sf : Bool) (s : State) :
    (operand2 o sf s).carry = none := by
  cases o with
  | imm rot imm8 => exact absurd rfl (ho rot imm8)
  | immShift => rfl
  | regShift => rfl

theorem dpSetFlags_v_of_logical {op : Opcode} (hop : isLogical op = true) (rn : RegIdx) (o : Operand2) (s : State) :
    (dpSetFlags (aluOf op) rn o s).cpsr.v = s.cpsr.v :=
  dpStatus_v_of_logical (dpAlu_arith_of_logical hop true rn o s) _ _

theorem dpSetFlags_c_of_logical {op : Opcode} (hop : isLogical op = true) (rn : RegIdx) {o : Operand2}
    (ho : ∀ rot imm8, o ≠ .imm rot imm8) (s : State) : (dpSetFlags (aluOf op) rn o s).cpsr.c = s.cpsr.c := by
  show (dpStatus (operand2 o true s).carry _ s.cpsr).c = s.cpsr.c
  rw [operand2_carry_of_register ho]
  exact dpStatus_c_of_logical (dpAlu_arith_of_logical hop true rn o s) _

/-! ### The frame of a data-processing instruction -/

namespace DpEffect

variable {op : Opcode} {c : Cond} {sf : Bool} {rn rd : RegIdx} {o : Operand2} {s t : State}

theorem spsr_and_code_eq (h : DpEffect op c sf rn rd o s t) : t.spsr = s.spsr ∧ t.code = s.code := by
  cases h with
  | skip _ ht | store _ _ _ ht | branch _ ht | exceptionReturn _ _ ht | test _ ht => subst ht; simp

theorem reg_eq (h : DpEffect op c sf rn rd o s t) {j : Nat} (hj : j < 15) (hne : j ≠ rd.val ∨ isTest op = true) :
    t.regs[j] = s.regs[j] := by
  cases h with
  | skip _ ht | branch _ ht | exceptionReturn _ _ ht | test _ ht => subst ht; simp
  | store hop hi v ht =>
    have hj' : rd.val ≠ j := by
      rcases hne with hne | htest
      · exact hne.symm
      · simp [hop] at htest
    subst ht
    simp [Vector.getElem_set_ne hi hj hj']

/-- Short of a return from exception, the status set stays or is the one the flag update leaves. -/
theorem cpsr_cases (h : DpEffect op c sf rn rd o s t)
    (hr : ¬ (isTest op = false ∧ sf = true ∧ rd = 15 ∧ condPass c s.cpsr = true)) :
    t.cpsr = s.cpsr ∨ (isTest op = true ∨ sf = true) ∧ t.cpsr = (dpSetFlags (aluOf op) rn o s).cpsr := by
  cases h with
  | skip _ ht | branch _ ht => subst ht; exact .inl rfl
  | store _ _ _ ht =>
    subst ht
    cases sf
    · exact .inl rfl
    · exact .inr ⟨.inr rfl, rfl⟩
  | exceptionReturn hret _ _ => exact absurd hret hr
  | test hop ht => subst ht; exact .inr ⟨.inl hop, rfl⟩

end DpEffect

/-! ### What no instruction computes on

The saved status set is read by the return from exception only, the code store by the fetch only: with both replaced, everything
else an instruction does stays. -/

/-- `s` with another saved status set and another code store. -/
def State.withSaved (p : Status) (m : Memory) (s : State) : State := { s with spsr := p, code := m }

section
variable (p : Status) (m : Memory) (s : State)

@[simp] theorem regRead_withSaved (i : RegIdx) : regRead i (s.withSaved p m) = regRead i s := rfl

@[simp] theorem operand2_withSaved (o : Operand2) (sf : Bool) : operand2 o sf (s.withSaved p m) = operand2 o sf s := rfl

@[simp] theorem dpAlu_withSaved (alu sf rn o) : dpAlu alu sf rn o (s.withSaved p m) = dpAlu alu sf rn o s := rfl

@[simp] theorem dpSetFlags_withSaved (alu rn o) :
    dpSetFlags alu rn o (s.withSaved p m) = (dpSetFlags alu rn o s).withSaved p m := rfl

theorem gated_withSaved (c : Cond) (r : Result) :
    gated c (s.withSaved p m) (mapNext (State.withSaved p m) r) = mapNext (State.withSaved p m) (gated c s r) := by
  cases hc : condPass c s.cpsr
  · rw [gated_fail hc, gated_fail (s := s.withSaved p m) hc]
    rfl
  · rw [gated_pass hc, gated_pass (s := s.withSaved p m) hc]

theorem retire_writeReg_withSaved (i : RegIdx) (v : Word) :
    retire (writeReg i v (s.withSaved p m)) = mapNext (State.withSaved p m) (retire (writeReg i v s)) := by
  rcases regIdx_lt_or_pc i with hi | rfl
  · rw [writeReg_stored hi, writeReg_stored hi]; rfl
  · rfl

/-- The write-back of S = 1 reads the saved set only as a return from exception. -/
theorem retire_writeRegS_withSaved {i : RegIdx} (hi : i = 15 → p = s.spsr) (v : Word) :
    retire (writeRegS i v (s.withSaved p m)) = mapNext (State.withSaved p m) (retire (writeRegS i v s)) := by
  rcases regIdx_lt_or_pc i with hlt | rfl
  · rw [writeRegS_stored hlt, writeRegS_stored hlt]; rfl
  · rw [hi rfl]; rfl

theorem dataProcess_withSaved {sf : Bool} {rd : RegIdx} (hr : rd = 15 → sf = true → p = s.spsr) (alu c rn o) :
    dataProcess alu c sf rn rd o (s.withSaved p m) = mapNext (State.withSaved p m) (dataProcess alu c sf rn rd o s) := by
  rw [dataProcess, dataProcess, ← gated_withSaved]
  cases sf
  · simp [retire_writeReg_withSaved]
  · simp [retire_writeRegS_withSaved p m (dpSetFlags alu rn o s) (fun h => hr h rfl)]

theorem dataTest_withSaved (alu c rn rd o) :
    dataTest alu c rn rd o (s.withSaved p m) = mapNext (State.withSaved p m) (dataTest alu c rn rd o s) := by
  rw [dataTest, dataTest, dpSetFlags_withSaved, ← gated_withSaved]
  rfl

theorem execBx_withSaved (c rm) :
    execBx c rm (s.withSaved p m) = mapNext (State.withSaved p m) (execBx c rm s) := by
  rw [execBx, execBx, regRead_withSaved, ← gated_withSaved]
  rfl

/-- Running a decoded word commutes with replacing the saved set and the code store; a return from exception needs the saved
set it was given. -/
theorem exec_decodeWord_withSaved {w : Word} (hr : isExceptionReturn w → p = s.spsr) :
    exec (decodeWord w) (s.withSaved p m) = mapNext (State.withSaved p m) (exec (decodeWord w) s) := by
  rcases class_cases w with hd | hb | ⟨k, hk⟩ | hu
  · obtain ⟨o, ho⟩ := decodeWord_dp hd
    rw [ho]
    cases htest : isTest (.ofBits (opcodeBits w))
    · rw [exec_dp_write htest, exec_dp_write htest]
      exact dataProcess_withSaved p m s (fun hrd hs => hr ⟨⟨hd, hrd, htest⟩, hs⟩) ..
    · rw [exec_dp_test htest, exec_dp_test htest]
      exact dataTest_withSaved ..
  · rw [decodeWord_bx hb]
    exact execBx_withSaved ..
  · rw [decodeWord_hook hk, exec_hookInstr, exec_hookInstr, ← gated_withSaved]
    rfl
  · rw [decodeWord_undefined hu, exec_undefinedInstr, exec_undefinedInstr, ← gated_withSaved]
    rfl

theorem step_withSaved (hf : fetch (s.withSaved p m) = fetch s) (hr : isExceptionReturn (fetch s) → p = s.spsr) :
    step (s.withSaved p m) = mapNext (State.withSaved p m) (step s) := by
  cases ht : s.cpsr.t
  · rw [step_of_arm ht, step_of_arm (s := s.withSaved p m) ht, hf]
    exact exec_decodeWord_withSaved p m s hr
  · rw [step_of_thumb ht, step_of_thumb (s := s.withSaved p m) ht]
    rfl

end

/-- Two changes that agree on the next state, if any, change the outcome alike. -/
theorem mapNext_congr {f g : State → State} {r : Result} (h : ∀ t, r = .next t → f t = g t) : mapNext f r = mapNext g r := by
  cases r with
  | next t => exact congrArg Host.Outcome.next (h t rfl)
  | fault => rfl
  | refused => rfl

/-- Two code stores that hold the same four bytes at an address give the same word there. -/
theorem memRead_four_congr {m m' : Memory} {a : Word}
    (h : ∀ k < 4, readByte m (a + BitVec.ofNat 32 k) = readByte m' (a + BitVec.ofNat 32 k)) :
    memRead m a 4 = memRead m' a 4 := by
  have h0 : readByte m a = readByte m' a := by simpa using h 0 (by decide)
  have h1 : readByte m (a + 1) = readByte m' (a + 1) := h 1 (by decide)
  have h2 : readByte m (a + 2) = readByte m' (a + 2) := h 2 (by decide)
  have h3 : readByte m (a + 3) = readByte m' (a + 3) := h 3 (by decide)
  rw [memRead_four, memRead_four, h0, h1, h2, h3]

end Sys2Proof.Machine

/-! ### The statements -/

namespace Sys2Proof.Proofs

open Sys2Proof.Machine Sys2Proof.Claims

/-- Settles O48: each of the six effects of a step leaves the pc sequential or masked for the mode the step ends in. -/
theorem everyStepKeepsSoundness : Obligations.EveryStepKeepsSoundness := fun _ _ => step_keeps_sound

/-- Settles O31, from the frame of each way a data-processing instruction retires. -/
theorem dataProcessingFrame : Obligations.DataProcessingFrame := by
  intro op c sf rn rd o s t h returns
  have effect := exec_dp_next h
  obtain ⟨hspsr, hcode⟩ := effect.spsr_and_code_eq
  refine ⟨hspsr, fun a => by rw [hcode], fun j hj => effect.reg_eq hj, fun hr => ?_, fun hop hs => ?_, fun hlog hr => ?_⟩
  · rcases effect.cpsr_cases hr with hcpsr | ⟨-, hcpsr⟩ <;> rw [hcpsr]
    exact dpSetFlags_t ..
  · rcases effect.cpsr_cases (by simp [hs]) with hcpsr | ⟨hflags, -⟩
    · exact hcpsr
    · simp [hop, hs] at hflags
  · rcases effect.cpsr_cases hr with hcpsr | ⟨-, hcpsr⟩ <;> rw [hcpsr]
    · exact ⟨rfl, fun _ => rfl⟩
    · exact ⟨dpSetFlags_v_of_logical hlog .., fun ho => dpSetFlags_c_of_logical hlog rn ho s⟩

/-- Settles O40: of the six effects of a step only the store of Rd touches the registers, and only at Rd. -/
theorem onlyRdOfADataProcessingWordChanges : Obligations.OnlyRdOfADataProcessingWordChanges := by
  intro s t j hj h hne
  cases step_next h with
  | skip _ ht | branch _ _ _ _ ht | exceptionReturn _ _ _ ht | test _ _ _ _ _ _ ht | exchange _ _ _ ht =>
    subst ht; exact absurd rfl hne
  | store hc hi hw _ _ _ v ht =>
    have hrd : (rdField (fetch s)).val = j := by
      by_contra hrd
      subst ht
      simp [Vector.getElem_set_ne hi hj hrd] at hne
    subst hrd
    exact ⟨hw, hc⟩

/-- Settles O41: an effect that writes N, Z, C or V comes from a data-processing word with S = 1. -/
theorem flagsChangeOnlyUnderS : Obligations.FlagsChangeOnlyUnderS := by
  intro s t h hne
  cases step_next h with
  | skip _ ht | branch _ _ _ _ ht | exchange _ _ _ ht => subst ht; exact absurd rfl hne
  | store hc _ hw _ _ _ _ ht =>
    obtain ⟨hd, -, -⟩ := hw
    cases hs : sBit (fetch s)
    · rw [hs] at ht
      subst ht
      exact absurd rfl hne
    · exact ⟨hd, rfl, hc⟩
  | exceptionReturn hc hw _ _ =>
    obtain ⟨⟨hd, -, -⟩, hs⟩ := hw
    exact ⟨hd, hs, hc⟩
  | test hc hd hs _ _ _ _ => exact ⟨hd, hs, hc⟩

/-- Settles O42: of the six effects of a step only the return from exception and BX write T. -/
theorem modeChangesOnlyByBxOrReturn : Obligations.ModeChangesOnlyByBxOrReturn := by
  intro s t h hne
  cases step_next h with
  | skip _ ht | store _ _ _ _ _ _ _ ht | branch _ _ _ _ ht | test _ _ _ _ _ _ ht => subst ht; simp at hne
  | exceptionReturn _ hw _ _ => exact .inr hw
  | exchange _ hb _ _ => exact .inl hb

/-- Settles O43: every effect of a step but BX and the two writes of register 15 advances the pc. -/
theorem pcAdvancesUnlessBxOrPcWrite : Obligations.PcAdvancesUnlessBxOrPcWrite := by
  intro s t h hne
  cases step_next h with
  | skip _ ht | store _ _ _ _ _ _ _ ht | test _ _ _ _ _ _ ht => subst ht; simp at hne
  | branch _ hw _ _ _ => exact .inr hw
  | exceptionReturn _ hr _ _ =>
    obtain ⟨hw, -⟩ := hr
    exact .inr hw
  | exchange _ hb _ _ => exact .inl hb

/-- Settles O44, by induction on the run: every step keeps both. -/
theorem noRunChangesSavedStatusOrCode : Obligations.NoRunChangesSavedStatusOrCode := by
  intro k s t h
  refine runSteps_keeps (P := fun u => u.spsr = s.spsr ∧ u.code = s.code) (fun hu hstep => ?_) ⟨rfl, rfl⟩ h
  obtain ⟨hspsr, hcode⟩ := step_keeps_spsr_and_code hstep
  exact ⟨hspsr.trans hu.1, hcode.trans hu.2⟩

/-- Settles O46: short of a return from exception the step commutes with replacing the saved set. -/
theorem savedStatusIsReadOnlyByTheReturn : Obligations.SavedStatusIsReadOnlyByTheReturn := by
  intro s p hr
  refine (step_withSaved p s.code s rfl (absurd · hr)).trans (mapNext_congr fun t ht => ?_)
  rw [State.withSaved, ← (step_keeps_spsr_and_code ht).2]

/-- Settles O47: the step commutes with replacing the code store by one that holds the same word at the pc. -/
theorem codeStoreIsReadOnlyByFetch : Obligations.CodeStoreIsReadOnlyByFetch := by
  intro s m hm
  refine (step_withSaved s.spsr m s (memRead_four_congr hm) (fun _ => rfl)).trans (mapNext_congr fun t ht => ?_)
  rw [State.withSaved, ← (step_keeps_spsr_and_code ht).1]

/-- Settles O50: launch states are sound and every run keeps soundness. -/
theorem reachableArmStatePcIsAligned : Obligations.ReachableArmStatePcIsAligned := by
  intro p k t hp h harm
  obtain ⟨hpc, -⟩ := (sound_iff t).1 (runSteps_keeps step_keeps_sound (launch_sound hp) h)
  rw [harm] at hpc
  exact pcAligned_arm_low_bits hpc

/-- Settles O49: the launch parameters are the conjuncts of soundness, and the reset state is a launch state. -/
theorem launchIsSoundAndFetchesAtResetPc : Obligations.LaunchIsSoundAndFetchesAtResetPc :=
  ⟨fun _ hp => ⟨launch_sound hp, rfl, rfl⟩, launch_sound launchDefault_ok, rfl⟩

end Sys2Proof.Proofs
end

section
/-! The statements of 20_memory.md: the byte order of a fetch, and the word a step finds where it was placed. -/

namespace Sys2Proof.Machine

/-- Byte `k` of a little-endian read is the byte `k` addresses up, modulo 2^32 (R51, R54). -/
theorem extractLsb'_memRead (m : Memory) (a : Word) {n k : Nat} (hk : k < n) :
    (memRead m a n).extractLsb' (8 * k) 8 = readByte m (a + BitVec.ofNat 32 k) := by
  induction n generalizing a k with
  | zero => exact absurd hk (Nat.not_lt_zero k)
  | succ n ih =>
    cases k with
    | zero =>
      rw [memRead, BitVec.ofNat_eq_ofNat, BitVec.add_zero]
      exact BitVec.extractLsb'_append_eq_right
    | succ k =>
      calc (memRead m a (n + 1)).extractLsb' (8 * (k + 1)) 8
          = (memRead m (a + 1) n).extractLsb' (8 * k) 8 := BitVec.extractLsb'_append_eq_of_le (by omega)
        _ = readByte m (a + 1#32 + BitVec.ofNat 32 k) := ih (a + 1) (Nat.lt_of_succ_lt_succ hk)
        _ = readByte m (a + BitVec.ofNat 32 (k + 1)) := by
          rw [BitVec.add_assoc, BitVec.add_comm 1#32, ← BitVec.ofNat_add]

end Sys2Proof.Machine

/-! ### The statements -/

namespace Sys2Proof.Proofs

open Sys2Proof.Machine Sys2Proof.Claims

/-- Settles O8: the fetch is the read of four bytes at the pc. -/
theorem fetchIsLittleEndian : Obligations.FetchIsLittleEndian :=
  fun s _ hk => extractLsb'_memRead s.code s.pc hk

/-- Settles O10: placing the word clears T, and the fetch reads it back. -/
theorem placedWordIsTheNextStep : Obligations.PlacedWordIsTheNextStep := by
  intro s w hcode
  rw [step_of_arm (s := s.withFetchWord 32 w) rfl, fetch_withFetchWord hcode]

end Sys2Proof.Proofs
end

section
/-! The statements of 30_encoding.md: the encoder and the decoder are inverse, the opcode table and the decode tree agree, and
which words have which class. The lemmas come first, then the proofs that settle the statements. -/

namespace Sys2Proof

open Machine

/-! ### Field values and back -/

theorem cond_toBits_ofBits (b : BitVec 4) : (Cond.ofBits b).toBits = b := by revert b; decide

theorem shiftType_toBits_ofBits (b : BitVec 2) : (ShiftType.ofBits b).toBits = b := by revert b; decide

theorem opcode_toBits_ofBits (b : BitVec 4) : (Opcode.ofBits b).toBits = b := by revert b; decide

theorem ofBool_getLsbD (w : Word) (i : Nat) : BitVec.ofBool (w.getLsbD i) = w.extractLsb' i 1 := by
  refine BitVec.eq_of_getLsbD_eq fun j hj => ?_
  obtain rfl : j = 0 := by omega
  simp

theorem extractLsb'_one_of_getLsbD {w : Word} {i : Nat} {b : Bool} (h : w.getLsbD i = b) :
    w.extractLsb' i 1 = BitVec.ofBool b := by
  rw [← h, ofBool_getLsbD]

/-- A field of a field is a field. -/
theorem extractLsb'_extractLsb' {n s m t k : Nat} (x : BitVec n) (h : t + k ≤ m) :
    (x.extractLsb' s m).extractLsb' t k = x.extractLsb' (s + t) k := by
  refine BitVec.eq_of_getLsbD_eq fun i hi => ?_
  simp [hi, show t + i < m by omega, Nat.add_assoc]

theorem getLsbD_extractLsb'_of_lt {n s m i : Nat} (x : BitVec n) (h : i < m) :
    (x.extractLsb' s m).getLsbD i = x.getLsbD (s + i) := by
  simp [h]

/-! ### A word from its fields

A word is the encoding of its own fields in a format as soon as it has the format's fixed bits (R72 to R75). -/

/-- Bits 27 to 25 of categories 0x0 to 0x3. -/
theorem catBits_high {w : Word} {c : BitVec 4} (h : catBits w = c) : w.extractLsb' 25 3 = c.extractLsb' 1 3 := by
  rw [← h, catBits, extractLsb'_extractLsb' w (by decide)]

theorem dpImmWord_fields {w : Word} (hc : w.extractLsb' 25 3 = 0b001#3) :
    dpImmWord (.ofBits (opcodeBits w)) (.ofBits (condBits w)) (sBit w) (rnField w) (rdField w) (rotField w) (imm8Field w)
      = w := by
  simp only [dpImmWord, opcode_toBits_ofBits, cond_toBits_ofBits, encodeReg, sBit, ofBool_getLsbD, opcodeBits, condBits,
    rnField, rdField, rotField, imm8Field, BitVec.ofFin_toFin, ← hc, BitVec.extractLsb'_append_extractLsb'_eq_extractLsb']
  exact BitVec.extractLsb'_eq_self

theorem dpImmShiftWord_fields {w : Word} (hc : w.extractLsb' 25 3 = 0b000#3) (h4 : w.getLsbD 4 = false) :
    dpImmShiftWord (.ofBits (opcodeBits w)) (.ofBits (condBits w)) (sBit w) (rnField w) (rdField w) (shamtField w)
      (.ofBits (typeBits w)) (rmField w) = w := by
  have h4 : w.extractLsb' 4 1 = 0#1 := extractLsb'_one_of_getLsbD h4
  simp only [dpImmShiftWord, opcode_toBits_ofBits, cond_toBits_ofBits, shiftType_toBits_ofBits, encodeReg, sBit,
    ofBool_getLsbD, opcodeBits, condBits, typeBits, rnField, rdField, rmField, shamtField, BitVec.ofFin_toFin, ← hc, ← h4,
    BitVec.extractLsb'_append_extractLsb'_eq_extractLsb']
  exact BitVec.extractLsb'_eq_self

theorem dpRegShiftWord_fields {w : Word} (hc : w.extractLsb' 25 3 = 0b000#3) (h4 : w.getLsbD 4 = true)
    (h7 : w.getLsbD 7 = false) :
    dpRegShiftWord (.ofBits (opcodeBits w)) (.ofBits (condBits w)) (sBit w) (rnField w) (rdField w) (rsField w)
      (.ofBits (typeBits w)) (rmField w) = w := by
  have h4 : w.extractLsb' 4 1 = 1#1 := extractLsb'_one_of_getLsbD h4
  have h7 : w.extractLsb' 7 1 = 0#1 := extractLsb'_one_of_getLsbD h7
  simp only [dpRegShiftWord, opcode_toBits_ofBits, cond_toBits_ofBits, shiftType_toBits_ofBits, encodeReg, sBit,
    ofBool_getLsbD, opcodeBits, condBits, typeBits, rnField, rdField, rsField, rmField, BitVec.ofFin_toFin, ← hc, ← h4, ← h7,
    BitVec.extractLsb'_append_extractLsb'_eq_extractLsb']
  exact BitVec.extractLsb'_eq_self

/-- The BX pattern fixes bits 27 to 4 and no other (R88). -/
theorem isBxWord_iff {w : Word} : isBxWord w = true ↔ w.extractLsb' 4 24 = 0x12FFF1#24 := by
  have hw : w.extractLsb' 28 4 ++ w.extractLsb' 4 24 ++ w.extractLsb' 0 4 = w := by
    simp only [BitVec.extractLsb'_append_extractLsb'_eq_extractLsb']
    exact BitVec.extractLsb'_eq_self
  have hmask : w &&& 0x0FFFFFF0 = 0#4 ++ w.extractLsb' 4 24 ++ 0#4 := by
    calc w &&& 0x0FFFFFF0
        = (w.extractLsb' 28 4 ++ w.extractLsb' 4 24 ++ w.extractLsb' 0 4) &&& (0#4 ++ BitVec.allOnes 24 ++ 0#4) := by
          rw [hw]; rfl
      _ = 0#4 ++ w.extractLsb' 4 24 ++ 0#4 := by simp only [BitVec.and_append, BitVec.and_zero, BitVec.and_allOnes]
  have hpattern : (0x012FFF10 : Word) = 0#4 ++ 0x12FFF1#24 ++ 0#4 := rfl
  rw [isBxWord, beq_iff_eq, hmask, hpattern, BitVec.append_left_inj, BitVec.append_right_inj]

theorem bxWord_fields {w : Word} (h : isBxWord w = true) : bxWord (.ofBits (condBits w)) (rmField w) = w := by
  simp only [bxWord, cond_toBits_ofBits, encodeReg, condBits, rmField, BitVec.ofFin_toFin, ← isBxWord_iff.1 h,
    BitVec.extractLsb'_append_extractLsb'_eq_extractLsb']
  exact BitVec.extractLsb'_eq_self

theorem catBits_bodyBits (w : Word) : (bodyBits w).extractLsb' 24 4 = catBits w := extractLsb'_extractLsb' w (by decide)

/-! ### The key of a word

What the tree reads of a word lies in bits 27 to 20 and bits 11 to 4, but for the BX pattern, which also asks for ones in bits
19 to 8 (R97). -/

/-- Bits 27 to 20. -/
def keyHi (w : Word) : BitVec 8 := w.extractLsb' 20 8

/-- Bits 11 to 4. -/
def keyLo (w : Word) : BitVec 8 := w.extractLsb' 4 8

section
variable (w : Word) {t k : Nat}

theorem extractLsb'_keyHi (h : t + k ≤ 8) : (keyHi w).extractLsb' t k = w.extractLsb' (20 + t) k :=
  extractLsb'_extractLsb' w h

theorem extractLsb'_keyLo (h : t + k ≤ 8) : (keyLo w).extractLsb' t k = w.extractLsb' (4 + t) k :=
  extractLsb'_extractLsb' w h

theorem getLsbD_keyHi (h : t < 8) : (keyHi w).getLsbD t = w.getLsbD (20 + t) := getLsbD_extractLsb'_of_lt w h

theorem getLsbD_keyLo (h : t < 8) : (keyLo w).getLsbD t = w.getLsbD (4 + t) := getLsbD_extractLsb'_of_lt w h

theorem catBits_key : catBits w = (keyHi w).extractLsb' 4 4 := by rw [catBits, extractLsb'_keyHi w (by decide)]
theorem opcodeBits_key : opcodeBits w = (keyHi w).extractLsb' 1 4 := by rw [opcodeBits, extractLsb'_keyHi w (by decide)]
theorem sBit_key : sBit w = (keyHi w).getLsbD 0 := by rw [sBit, getLsbD_keyHi w (by decide)]
theorem bit22_key : w.getLsbD 22 = (keyHi w).getLsbD 2 := by rw [getLsbD_keyHi w (by decide)]
theorem bit23_key : w.getLsbD 23 = (keyHi w).getLsbD 3 := by rw [getLsbD_keyHi w (by decide)]
theorem bits23to22_key : w.extractLsb' 22 2 = (keyHi w).extractLsb' 2 2 := by rw [extractLsb'_keyHi w (by decide)]
theorem bits23to21_key : w.extractLsb' 21 3 = (keyHi w).extractLsb' 1 3 := by rw [extractLsb'_keyHi w (by decide)]
theorem bit4_key : w.getLsbD 4 = (keyLo w).getLsbD 0 := by rw [getLsbD_keyLo w (by decide)]
theorem bit7_key : w.getLsbD 7 = (keyLo w).getLsbD 3 := by rw [getLsbD_keyLo w (by decide)]
theorem typeBits_key : typeBits w = (keyLo w).extractLsb' 1 2 := by rw [typeBits, extractLsb'_keyLo w (by decide)]
theorem bits11to8_key : w.extractLsb' 8 4 = (keyLo w).extractLsb' 4 4 := by rw [extractLsb'_keyLo w (by decide)]

end

theorem isBxWord_key {w : Word} :
    isBxWord w = true ↔ keyHi w = 0x12 ∧ w.extractLsb' 8 12 = 0xFFF ∧ (keyLo w).extractLsb' 0 4 = 1 := by
  have hsplit : w.extractLsb' 4 24 = keyHi w ++ w.extractLsb' 8 12 ++ w.extractLsb' 4 4 := by
    simp only [keyHi, BitVec.extractLsb'_append_extractLsb'_eq_extractLsb']
  rw [isBxWord_iff, extractLsb'_keyLo w (by decide)]
  constructor
  · intro h
    have field (s k : Nat) (hk : s + k ≤ 24) : w.extractLsb' (4 + s) k = (0x12FFF1#24).extractLsb' s k := by
      rw [← h, extractLsb'_extractLsb' w hk]
    exact ⟨field 16 8 (by decide), field 4 12 (by decide), field 0 4 (by decide)⟩
  · rintro ⟨hhi, hmid, hlo⟩
    rw [hsplit, hhi, hmid, hlo]
    rfl

/-- The class is a function of the key and of whether bits 19 to 8 are ones (R97). -/
theorem classify_congr {w w' : Word} (hhi : keyHi w = keyHi w') (hlo : keyLo w = keyLo w')
    (hones : w.extractLsb' 8 12 = 0xFFF ↔ w'.extractLsb' 8 12 = 0xFFF) : classify w = classify w' := by
  have hbx : isBxWord w = isBxWord w' := by
    rw [Bool.eq_iff_iff, isBxWord_key, isBxWord_key, hhi, hlo, hones]
  simp only [classify, classifyRegisterSpace, classifyExtension, isPsrTransfer, hbx, catBits_key, opcodeBits_key, sBit_key,
    bit22_key, bit23_key, bits23to22_key, bits23to21_key, bit4_key, bit7_key, typeBits_key, bits11to8_key, hhi, hlo]

/-! ### The leaves of the decode tree -/

/-- Opcode 8 to 11 is `10` in the upper two opcode bits. -/
theorem isPsrTransfer_iff {w : Word} : isPsrTransfer w = true ↔ (opcodeBits w).extractLsb' 2 2 = 2 ∧ sBit w = false := by
  have h : ∀ b : BitVec 4, (b == 8 || b == 9 || b == 10 || b == 11) = true ↔ b.extractLsb' 2 2 = 2 := by decide
  rw [isPsrTransfer, Bool.and_eq_true, h, Bool.not_eq_true']

/-- Where a walk down the tree ends, with the guards met on the way (R80 to R97). -/
inductive TreeLeaf (w : Word) : Prop where
  | bx (hc : catBits w = 1) (hb : isBxWord w = true) (hk : classify w = .bx)
  | psrReg (hc : catBits w = 1) (hb : isBxWord w = false) (h47 : w.getLsbD 4 = false ∨ w.getLsbD 7 = false)
      (hp : isPsrTransfer w = true) (hk : classify w = .hook .psrReg)
  | dpRegImmShift (hc : catBits w = 0 ∨ catBits w = 1) (hp : isPsrTransfer w = false) (h4 : w.getLsbD 4 = false)
      (hk : classify w = .dpRegImmShift)
  | dpRegRegShift (hc : catBits w = 0 ∨ catBits w = 1) (hp : isPsrTransfer w = false) (h4 : w.getLsbD 4 = true)
      (h7 : w.getLsbD 7 = false) (hk : classify w = .dpRegRegShift)
  | extension (hc : catBits w = 0 ∨ catBits w = 1) (h4 : w.getLsbD 4 = true) (h7 : w.getLsbD 7 = true)
      (hk : classify w = classifyExtension w)
  | psrImm (hc : catBits w = 3) (hp : isPsrTransfer w = true) (hk : classify w = .hook .psrImm)
  | dpImm (hc : catBits w = 2 ∨ catBits w = 3) (hp : isPsrTransfer w = false) (hk : classify w = .dpImm)
  | sdtImmPost (hc : catBits w = 4) (hk : classify w = .hook .sdtImmPost)
  | sdtImmPre (hc : catBits w = 5) (hk : classify w = .hook .sdtImmPre)
  | sdtRegPost (hc : catBits w = 6) (h4 : w.getLsbD 4 = false) (hk : classify w = .hook .sdtRegPost)
  | undefCat6 (hc : catBits w = 6) (h4 : w.getLsbD 4 = true) (hk : classify w = .undefined)
  | sdtRegPre (hc : catBits w = 7) (h4 : w.getLsbD 4 = false) (hk : classify w = .hook .sdtRegPre)
  | undefCat7 (hc : catBits w = 7) (h4 : w.getLsbD 4 = true) (hk : classify w = .undefined)
  | bdtPost (hc : catBits w = 8) (hk : classify w = .hook .bdtPost)
  | bdtPre (hc : catBits w = 9) (hk : classify w = .hook .bdtPre)
  | b (hc : catBits w = 10) (hk : classify w = .hook .b)
  | bl (hc : catBits w = 11) (hk : classify w = .hook .bl)
  | cdtPost (hc : catBits w = 12) (hk : classify w = .hook .cdtPost)
  | cdtPre (hc : catBits w = 13) (hk : classify w = .hook .cdtPre)
  | cdo (hc : catBits w = 14) (h4 : w.getLsbD 4 = false) (hk : classify w = .hook .cdo)
  | crt (hc : catBits w = 14) (h4 : w.getLsbD 4 = true) (hk : classify w = .hook .crt)
  | swi (hc : catBits w = 15) (hk : classify w = .hook .swi)

/-- In categories 0x0 and 0x2 bit 24 is clear, so the opcode is below 8. -/
theorem isPsrTransfer_false_of_even {w : Word} (hc : catBits w = 0 ∨ catBits w = 2) : isPsrTransfer w = false := by
  have h : ∀ hi : BitVec 8, hi.extractLsb' 4 4 = 0 ∨ hi.extractLsb' 4 4 = 2 →
      (hi.extractLsb' 1 4).extractLsb' 2 2 ≠ 2 := by decide
  rw [catBits_key] at hc
  rw [Bool.eq_false_iff, ne_eq, isPsrTransfer_iff, opcodeBits_key]
  exact fun ⟨h2, _⟩ => h _ hc h2

/-- Categories 0x0 and 0x1 past the BX guard (R81, R89). -/
theorem treeLeaf_registerSpace {w : Word} (hc : catBits w = 0 ∨ catBits w = 1 ∧ isBxWord w = false)
    (hk : classify w = classifyRegisterSpace w) : TreeLeaf w := by
  have hc' : catBits w = 0 ∨ catBits w = 1 := hc.imp_right And.left
  unfold classifyRegisterSpace at hk
  split at hk
  case isTrue h47 =>
    cases hp : isPsrTransfer w
    · rw [hp, if_neg Bool.false_ne_true] at hk
      cases h4 : w.getLsbD 4
      · exact .dpRegImmShift hc' hp h4 (hk.trans (if_pos h4))
      · exact .dpRegRegShift hc' hp h4 (h47.resolve_left (by simp [h4])) (hk.trans (if_neg (by simp [h4])))
    · rcases hc with h0 | ⟨h1, hb⟩
      · simp [isPsrTransfer_false_of_even (.inl h0)] at hp
      · exact .psrReg h1 hb h47 hp (hk.trans (if_pos hp))
  case isFalse h47 =>
    obtain ⟨h4, h7⟩ := not_or.1 h47
    exact .extension hc' (Bool.eq_true_of_not_eq_false h4) (Bool.eq_true_of_not_eq_false h7) hk

/-- Categories 0x2 and 0x3 (R90). -/
theorem treeLeaf_immediate {w : Word} (hc : catBits w = 2 ∨ catBits w = 3)
    (hk : classify w = if isPsrTransfer w then .hook .psrImm else .dpImm) : TreeLeaf w := by
  cases hp : isPsrTransfer w
  · exact .dpImm hc hp (by simpa [hp] using hk)
  · rcases hc with h2 | h3
    · simp [isPsrTransfer_false_of_even (.inr h2)] at hp
    · exact .psrImm h3 hp (by simpa [hp] using hk)

/-- The inversion of the decode tree: every word ends at a leaf. -/
theorem treeLeaf (w : Word) : TreeLeaf w := by
  obtain ⟨c, hc⟩ : ∃ c, catBits w = c := ⟨_, rfl⟩
  have cases16 : ∀ c : BitVec 4, c = 0 ∨ c = 1 ∨ c = 2 ∨ c = 3 ∨ c = 4 ∨ c = 5 ∨ c = 6 ∨ c = 7 ∨ c = 8 ∨ c = 9 ∨ c = 10 ∨
      c = 11 ∨ c = 12 ∨ c = 13 ∨ c = 14 ∨ c = 15 := by decide
  rcases cases16 c with rfl | rfl | rfl | rfl | rfl | rfl | rfl | rfl | rfl | rfl | rfl | rfl | rfl | rfl | rfl | rfl
  · exact treeLeaf_registerSpace (.inl hc) (by rw [classify, hc]; rfl)
  · have hk : classify w = if isBxWord w then .bx else classifyRegisterSpace w := by rw [classify, hc]; rfl
    cases hb : isBxWord w
    · exact treeLeaf_registerSpace (.inr ⟨hc, hb⟩) (by simpa [hb] using hk)
    · exact .bx hc hb (by simpa [hb] using hk)
  · exact treeLeaf_immediate (.inl hc) (by rw [classify, hc]; rfl)
  · exact treeLeaf_immediate (.inr hc) (by rw [classify, hc]; rfl)
  · exact .sdtImmPost hc (by rw [classify, hc]; rfl)
  · exact .sdtImmPre hc (by rw [classify, hc]; rfl)
  · have hk : classify w = if w.getLsbD 4 = false then .hook .sdtRegPost else .undefined := by rw [classify, hc]; rfl
    cases h4 : w.getLsbD 4
    · exact .sdtRegPost hc h4 (hk.trans (if_pos h4))
    · exact .undefCat6 hc h4 (hk.trans (if_neg (by simp [h4])))
  · have hk : classify w = if w.getLsbD 4 = false then .hook .sdtRegPre else .undefined := by rw [classify, hc]; rfl
    cases h4 : w.getLsbD 4
    · exact .sdtRegPre hc h4 (hk.trans (if_pos h4))
    · exact .undefCat7 hc h4 (hk.trans (if_neg (by simp [h4])))
  · exact .bdtPost hc (by rw [classify, hc]; rfl)
  · exact .bdtPre hc (by rw [classify, hc]; rfl)
  · exact .b hc (by rw [classify, hc]; rfl)
  · exact .bl hc (by rw [classify, hc]; rfl)
  · exact .cdtPost hc (by rw [classify, hc]; rfl)
  · exact .cdtPre hc (by rw [classify, hc]; rfl)
  · have hk : classify w = if w.getLsbD 4 = false then .hook .cdo else .hook .crt := by rw [classify, hc]; rfl
    cases h4 : w.getLsbD 4
    · exact .cdo hc h4 (hk.trans (if_pos h4))
    · exact .crt hc h4 (hk.trans (if_neg (by simp [h4])))
  · exact .swi hc (by rw [classify, hc]; rfl)

/-! ### The class of the extension space -/

/-- The guards of the extension space are passed over exactly when bits 6 to 5 and bits 11 to 8 are not zero and bit 22 is
clear (R98). -/
theorem classifyExtension_eq_undefined {w : Word} :
    classifyExtension w = .undefined ↔ w.getLsbD 22 = false ∧ typeBits w ≠ 0 ∧ w.extractLsb' 8 4 ≠ 0 := by
  have h23 (h : w.getLsbD 22 = false) : w.extractLsb' 22 2 = 0 ∨ w.getLsbD 23 = true := by
    have key : ∀ hi : BitVec 8, hi.getLsbD 2 = false → hi.extractLsb' 2 2 = 0 ∨ hi.getLsbD 3 = true := by decide
    rw [bits23to22_key, bit23_key]
    rw [bit22_key] at h
    exact key _ h
  unfold classifyExtension
  constructor
  · intro h
    split_ifs at h with hswp hmul hmull hhtReg hhtImm
    have h22 : w.getLsbD 22 = false := by simpa using hhtImm
    refine ⟨h22, fun ht => ?_, fun h8 => hhtReg ⟨h8, h22⟩⟩
    exact (h23 h22).elim (fun h => hmul ⟨ht, h⟩) (fun h => hmull ⟨ht, h⟩)
  · rintro ⟨h22, ht, h8⟩
    rw [if_neg (fun h => h8 h.2.2), if_neg (fun h => ht h.1), if_neg (fun h => ht h.1), if_neg (fun h => h8 h.1),
      if_neg (by rw [h22]; exact Bool.false_ne_true)]

theorem classifyExtension_ne_hook {k : HookClass} (hk : k ∉ [.swp, .mul, .mull, .htReg, .htImm]) (w : Word) :
    classifyExtension w ≠ .hook k := by
  unfold classifyExtension
  split_ifs <;> rintro ⟨⟩ <;> exact hk (by decide)

/-! ### The PSR transfers and BX -/

theorem bit7_of_isBxWord {w : Word} (h : isBxWord w = true) : w.getLsbD 7 = false := by
  obtain ⟨-, -, hlo⟩ := isBxWord_key.1 h
  rw [bit7_key, ← getLsbD_extractLsb'_of_lt (s := 0) (m := 4) (i := 3) (keyLo w) (by decide), hlo]
  rfl

theorem classify_eq_psrReg {w : Word} : classify w = .hook .psrReg ↔
    catBits w = 1 ∧ (w.getLsbD 4 = false ∨ w.getLsbD 7 = false) ∧ isPsrTransfer w = true ∧ isBxWord w = false := by
  cases treeLeaf w with
  | psrReg hc hb h47 hp hk => simp only [hk, hc, h47, hp, hb, and_self]
  | bx _ hb hk => simp [hk, hb]
  | extension _ h4 h7 hk =>
    rw [hk, h4, h7]
    simp [classifyExtension_ne_hook]
  | dpRegImmShift _ hp _ hk | dpRegRegShift _ hp _ _ hk | dpImm _ hp hk => simp [hk, hp]
  | psrImm hc _ hk | sdtRegPost hc _ hk | undefCat6 hc _ hk | sdtRegPre hc _ hk | undefCat7 hc _ hk | cdo hc _ hk
  | crt hc _ hk | sdtImmPost hc hk | sdtImmPre hc hk | bdtPost hc hk | bdtPre hc hk | b hc hk | bl hc hk | cdtPost hc hk
  | cdtPre hc hk | swi hc hk => simp [hk, hc]

theorem classify_eq_psrImm {w : Word} : classify w = .hook .psrImm ↔ catBits w = 3 ∧ isPsrTransfer w = true := by
  cases treeLeaf w with
  | psrImm hc hp hk => simp [hk, hc, hp]
  | extension hc _ _ hk => rcases hc with hc | hc <;> simp [hk, hc, classifyExtension_ne_hook]
  | dpRegImmShift _ hp _ hk | dpRegRegShift _ hp _ _ hk | dpImm _ hp hk => simp [hk, hp]
  | bx hc _ hk | psrReg hc _ _ _ hk | sdtRegPost hc _ hk | undefCat6 hc _ hk | sdtRegPre hc _ hk | undefCat7 hc _ hk
  | cdo hc _ hk | crt hc _ hk | sdtImmPost hc hk | sdtImmPre hc hk | bdtPost hc hk | bdtPre hc hk | b hc hk | bl hc hk
  | cdtPost hc hk | cdtPre hc hk | swi hc hk => simp [hk, hc]

/-- The two sets of words of rule R98. -/
theorem classify_eq_undefined {w : Word} : classify w = .undefined ↔
    (catBits w = 0 ∨ catBits w = 1) ∧ w.getLsbD 7 = true ∧ w.getLsbD 4 = true ∧ classifyExtension w = .undefined ∨
      (catBits w = 6 ∨ catBits w = 7) ∧ w.getLsbD 4 = true := by
  cases treeLeaf w with
  | extension hc h4 h7 hk => rcases hc with hc | hc <;> rw [hk, hc, h4, h7] <;> simp
  | undefCat6 hc h4 hk | undefCat7 hc h4 hk => rw [hk, hc, h4]; simp
  | bx hc hb hk => rw [hk, hc, bit7_of_isBxWord hb]; simp
  | psrReg hc _ h47 _ hk => rcases h47 with h | h <;> rw [hk, hc, h] <;> simp
  | dpRegImmShift hc _ h4 hk => rcases hc with hc | hc <;> rw [hk, hc, h4] <;> simp
  | dpRegRegShift hc _ _ h7 hk => rcases hc with hc | hc <;> rw [hk, hc, h7] <;> simp
  | sdtRegPost hc h4 hk | sdtRegPre hc h4 hk => rw [hk, hc, h4]; simp
  | dpImm hc _ hk => rcases hc with hc | hc <;> simp [hk, hc]
  | psrImm hc _ hk | cdo hc _ hk | crt hc _ hk | sdtImmPost hc hk | sdtImmPre hc hk | bdtPost hc hk | bdtPre hc hk
  | b hc hk | bl hc hk | cdtPost hc hk | cdtPre hc hk | swi hc hk => simp [hk, hc]

/-! ### The opcode table -/

/-- The two rows ask for different values of a bit that both ask for: no word hits both. -/
def OpcodeRow.clashes (r q : OpcodeRow) : Bool := r.pattern &&& q.mask != q.pattern &&& r.mask

/-- What a row asks of bits 27 to 20. -/
def OpcodeRow.hiHits (r : OpcodeRow) (hi : BitVec 8) : Bool := hi &&& r.mask.extractLsb' 20 8 == r.pattern.extractLsb' 20 8

/-- What a row asks of bits 11 to 4. -/
def OpcodeRow.loHits (r : OpcodeRow) (lo : BitVec 8) : Bool := lo &&& r.mask.extractLsb' 4 8 == r.pattern.extractLsb' 4 8

section
variable {r : OpcodeRow} {x m p : BitVec 8}

theorem hiHits_of_and_eq (hm : r.mask.extractLsb' 20 8 = m) (hp : r.pattern.extractLsb' 20 8 = p) (h : x &&& m = p) :
    r.hiHits x = true := by
  rw [OpcodeRow.hiHits, hm, hp, h, beq_self_eq_true]

theorem loHits_of_and_eq (hm : r.mask.extractLsb' 4 8 = m) (hp : r.pattern.extractLsb' 4 8 = p) (h : x &&& m = p) :
    r.loHits x = true := by
  rw [OpcodeRow.loHits, hm, hp, h, beq_self_eq_true]

end

theorem hits_eq_false_of_clashes {r q : OpcodeRow} {b : BitVec 28} (h : r.clashes q = true) (hr : r.hits b = true) :
    q.hits b = false := by
  by_contra hq
  simp only [OpcodeRow.hits, Bool.not_eq_false, beq_iff_eq] at hr hq
  rw [OpcodeRow.clashes, bne_iff_ne, ← hr, ← hq, BitVec.and_assoc, BitVec.and_assoc, BitVec.and_comm r.mask] at h
  exact h rfl

theorem order_eq_index : ∀ i, (hi : i < opcodeTable.length) → opcodeTable[i].order = i + 1 := by decide

/-- The first row that hits is the one that hits while no row of a smaller order does (R102). -/
theorem firstRow_eq_some {r : OpcodeRow} {b : BitVec 28} (hr : r ∈ opcodeTable) (hb : r.hits b = true)
    (hfirst : ∀ q ∈ opcodeTable, q.order < r.order → q.hits b = false) : firstRow b = some r := by
  obtain ⟨i, hi, rfl⟩ := List.getElem_of_mem hr
  refine List.find?_eq_some_iff_getElem.2 ⟨hb, i, hi, rfl, fun j hj => ?_⟩
  rw [hfirst _ (List.getElem_mem _) (by rw [order_eq_index, order_eq_index]; omega)]
  rfl

/-- All rows but six clash with every row before them; the six are the PSR rows, behind BX, and four rows of the extension
space. -/
theorem rows_clash :
    opcodeTable.Pairwise fun q r => r.order ∉ [2, 3, 37, 39, 40, 41] → r.clashes q = true := by decide

theorem clashes_of_order_lt {r q : OpcodeRow} (hr : r ∈ opcodeTable) (hq : q ∈ opcodeTable) (hlt : q.order < r.order)
    (ho : r.order ∉ [2, 3, 37, 39, 40, 41]) : r.clashes q = true := by
  obtain ⟨i, hi, rfl⟩ := List.getElem_of_mem hr
  obtain ⟨j, hj, rfl⟩ := List.getElem_of_mem hq
  rw [order_eq_index, order_eq_index] at hlt
  exact List.pairwise_iff_getElem.1 rows_clash j i hj hi (by omega) ho

/-! ### What the rows read of a word -/

/-- `x &&& 0xFF00FF0` keeps bits 27 to 20 and 11 to 4. -/
theorem and_keyMask (x : BitVec 28) : x &&& 0xFF00FF0 = x.extractLsb' 20 8 ++ 0#8 ++ x.extractLsb' 4 8 ++ 0#4 := by
  have hx : x.extractLsb' 20 8 ++ x.extractLsb' 12 8 ++ x.extractLsb' 4 8 ++ x.extractLsb' 0 4 = x := by
    simp only [BitVec.extractLsb'_append_extractLsb'_eq_extractLsb']
    exact BitVec.extractLsb'_eq_self
  calc x &&& 0xFF00FF0
      = (x.extractLsb' 20 8 ++ x.extractLsb' 12 8 ++ x.extractLsb' 4 8 ++ x.extractLsb' 0 4) &&&
          (BitVec.allOnes 8 ++ 0#8 ++ BitVec.allOnes 8 ++ 0#4) := by rw [hx]; rfl
    _ = _ := by simp only [BitVec.and_append, BitVec.and_zero, BitVec.and_allOnes]

theorem rows_read_key : ∀ r ∈ opcodeTable, r.order ≠ 1 →
    r.mask &&& 0xFF00FF0 = r.mask ∧ r.pattern &&& 0xFF00FF0 = r.pattern := by decide

/-- Every row but BX reads a word through its key. -/
theorem hits_bodyBits {r : OpcodeRow} (hr : r ∈ opcodeTable) (h1 : r.order ≠ 1) (w : Word) :
    r.hits (bodyBits w) = true ↔ r.hiHits (keyHi w) = true ∧ r.loHits (keyLo w) = true := by
  obtain ⟨hmask, hpattern⟩ := rows_read_key r hr h1
  have hhi : (bodyBits w).extractLsb' 20 8 = keyHi w := extractLsb'_extractLsb' w (by decide)
  have hlo : (bodyBits w).extractLsb' 4 8 = keyLo w := extractLsb'_extractLsb' w (by decide)
  simp only [OpcodeRow.hits, OpcodeRow.hiHits, OpcodeRow.loHits, beq_iff_eq, ← hhi, ← hlo, ← BitVec.extractLsb'_and]
  constructor
  · intro h
    rw [h]
    exact ⟨rfl, rfl⟩
  · rintro ⟨h, h'⟩
    rw [← hmask, ← BitVec.and_assoc, and_keyMask, h, h', ← and_keyMask, hpattern]

/-- The BX row is the BX pattern (R88). -/
theorem bxRow_hits (w : Word) : opcodeRowsPsrAndBx[0].hits (bodyBits w) = isBxWord w := by
  have hmask : w &&& 0x0FFFFFF0 = 0#4 ++ (bodyBits w &&& 0xFFFFFF0) := by
    calc w &&& 0x0FFFFFF0 = bodyWord (.ofBits (condBits w)) (bodyBits w) &&& (0#4 ++ 0xFFFFFF0#28) := by
          rw [bodyWord_fields]; rfl
      _ = _ := by rw [bodyWord, BitVec.and_append, BitVec.and_zero]; rfl
  have hpattern : (0x012FFF10 : Word) = 0#4 ++ 0x12FFF10#28 := rfl
  rw [Bool.eq_iff_iff, isBxWord, beq_iff_eq, hmask, hpattern, BitVec.append_right_inj]
  exact beq_iff_eq

/-! ### The table and the tree agree, leaf by leaf -/

/-- The first row that hits has the class of the tree and the row of the decoder (R102). -/
def TableAgrees (w : Word) : Prop := ∃ r, firstRow (bodyBits w) = some r ∧ r.cls = classify w ∧ r.order = (decodeWord w).row

/-- A row with no overlapping row before it is the first that hits as soon as it hits. -/
theorem tableAgrees_of_clashes {w : Word} {r : OpcodeRow} (hr : r ∈ opcodeTable) (ho : r.order ∉ [1, 2, 3, 37, 39, 40, 41])
    (hhi : r.hiHits (keyHi w) = true) (hlo : r.loHits (keyLo w) = true) (hk : classify w = r.cls)
    (hrow : (decodeWord w).row = r.order) : TableAgrees w := by
  obtain ⟨h1, ho⟩ := not_or.1 (mt List.mem_cons.2 ho)
  have hb := (hits_bodyBits hr h1 w).2 ⟨hhi, hlo⟩
  exact ⟨r, firstRow_eq_some hr hb fun q hq hlt => hits_eq_false_of_clashes (clashes_of_order_lt hr hq hlt ho) hb, hk.symm,
    hrow.symm⟩

/-- Rows 59 to 73 ask for a category, and some of them for a value of bit 4. -/
theorem tableAgrees_upper {w : Word} {r : OpcodeRow} (hr : r ∈ opcodeRowsUpper) (hc : catBits w = r.pattern.extractLsb' 24 4)
    (h4 : r.mask.getLsbD 4 = false ∨ w.getLsbD 4 = r.pattern.getLsbD 4) (hk : classify w = r.cls)
    (hrow : (decodeWord w).row = r.order) : TableAgrees w := by
  have hrows : ∀ r ∈ opcodeRowsUpper, r.order ∉ [1, 2, 3, 37, 39, 40, 41] ∧ r.mask.extractLsb' 20 8 = 0xF0 ∧
      r.pattern.extractLsb' 20 8 = r.pattern.extractLsb' 24 4 ++ 0#4 ∧
      r.mask.extractLsb' 4 8 = (BitVec.ofBool (r.mask.getLsbD 4)).setWidth 8 ∧
      r.pattern.extractLsb' 4 8 = (BitVec.ofBool (r.mask.getLsbD 4 && r.pattern.getLsbD 4)).setWidth 8 := by decide
  have hcat : ∀ hi : BitVec 8, hi &&& 0xF0 = hi.extractLsb' 4 4 ++ 0#4 := by decide
  have hbit : ∀ (m p : Bool) (lo : BitVec 8), m = false ∨ lo.getLsbD 0 = p →
      lo &&& (BitVec.ofBool m).setWidth 8 = (BitVec.ofBool (m && p)).setWidth 8 := by decide
  obtain ⟨ho, hhiMask, hhiPattern, hloMask, hloPattern⟩ := hrows r hr
  rw [catBits_key] at hc
  rw [bit4_key] at h4
  refine tableAgrees_of_clashes (List.mem_append_right _ hr) ho (hiHits_of_and_eq hhiMask hhiPattern ?_)
    (loHits_of_and_eq hloMask hloPattern (hbit _ _ _ h4)) hk hrow
  rw [hcat, hc]

/-- A hooked category that one row takes whole. -/
theorem tableAgrees_category {w : Word} {r : OpcodeRow} {k : HookClass} {c : BitVec 4}
    (hr : r ∈ opcodeRowsUpper ∧ r.cls = .hook k ∧ r.pattern.extractLsb' 24 4 = c ∧ r.mask.getLsbD 4 = false)
    (hrow : ∀ c body, (hookInstr k c body).row = r.order) (hc : catBits w = c) (hk : classify w = .hook k) :
    TableAgrees w := by
  obtain ⟨hmem, hcls, hcat, hbit⟩ := hr
  exact tableAgrees_upper hmem (hc.trans hcat.symm) (.inl hbit) (hk.trans hcls.symm) (by rw [decodeWord_hook hk, hrow])

/-- A hooked row for one value of bit 4 in its category. -/
theorem tableAgrees_categoryBit4 {w : Word} {r : OpcodeRow} {k : HookClass} {c : BitVec 4} {v : Bool}
    (hr : r ∈ opcodeRowsUpper ∧ r.cls = .hook k ∧ r.pattern.extractLsb' 24 4 = c ∧ r.pattern.getLsbD 4 = v)
    (hrow : ∀ c body, (hookInstr k c body).row = r.order) (hc : catBits w = c) (h4 : w.getLsbD 4 = v)
    (hk : classify w = .hook k) : TableAgrees w := by
  obtain ⟨hmem, hcls, hcat, hbit⟩ := hr
  exact tableAgrees_upper hmem (hc.trans hcat.symm) (.inr (h4.trans hbit.symm)) (hk.trans hcls.symm)
    (by rw [decodeWord_hook hk, hrow])

/-- An `UNDEFINED` row, for bit 4 set in its category. -/
theorem tableAgrees_categoryUndefined {w : Word} {r : OpcodeRow} {c : BitVec 4}
    (hr : r ∈ opcodeRowsUpper ∧ r.cls = .undefined ∧ r.pattern.extractLsb' 24 4 = c ∧ r.pattern.getLsbD 4 = true)
    (hrow : ∀ c' body, body.extractLsb' 24 4 = c → (undefinedInstr c' body).row = r.order) (hc : catBits w = c)
    (h4 : w.getLsbD 4 = true) (hk : classify w = .undefined) : TableAgrees w := by
  obtain ⟨hmem, hcls, hcat, hbit⟩ := hr
  exact tableAgrees_upper hmem (hc.trans hcat.symm) (.inr (h4.trans hbit.symm)) (hk.trans hcls.symm)
    (by rw [decodeWord_undefined hk, hrow _ _ ((catBits_bodyBits w).trans hc)])

/-! #### Data processing -/

/-- The row of AND in a second-operand form; the other opcodes follow in order. -/
def formRow : Operand2 → Nat
  | .imm .. => 43
  | .immShift .. => 4
  | .regShift .. => 20

theorem dp_row (op : Opcode) (c : Cond) (sf : Bool) (rn rd : RegIdx) (o : Operand2) :
    (Instr.dp op c sf rn rd o).row = op.toBits.toNat + formRow o := by
  cases op <;> cases o <;> rfl

/-- What `isPsrTransfer` reads, said of the key. -/
theorem not_psr_key {w : Word} (hp : isPsrTransfer w = false) :
    ¬ (((keyHi w).extractLsb' 1 4).extractLsb' 2 2 = 2 ∧ (keyHi w).getLsbD 0 = false) := by
  rwa [Bool.eq_false_iff, ne_eq, isPsrTransfer_iff, opcodeBits_key, sBit_key] at hp

theorem tableAgrees_dp {w : Word} {o : Operand2} {r : OpcodeRow} (hr : r ∈ opcodeTable)
    (ho : r.order = ((keyHi w).extractLsb' 1 4).toNat + formRow o) (hhi : r.hiHits (keyHi w) = true)
    (hlo : r.loHits (keyLo w) = true) (hk : classify w = r.cls)
    (hd : decodeWord w = .dp (.ofBits (opcodeBits w)) (.ofBits (condBits w)) (sBit w) (rnField w) (rdField w) o) :
    TableAgrees w := by
  rw [← opcodeBits_key] at ho
  refine tableAgrees_of_clashes hr ?_ hhi hlo hk (by rw [hd, dp_row, opcode_toBits_ofBits, ho])
  have hop := (opcodeBits w).isLt
  have hform : formRow o = 43 ∨ formRow o = 4 ∨ formRow o = 20 := by cases o <;> simp [formRow]
  simp only [List.mem_cons, List.not_mem_nil, or_false]
  omega

theorem tableAgrees_dpImm {w : Word} (hc : catBits w = 2 ∨ catBits w = 3) (hp : isPsrTransfer w = false)
    (hk : classify w = .dpImm) : TableAgrees w := by
  have hhi : ∀ hi : BitVec 8, hi.extractLsb' 4 4 = 2 ∨ hi.extractLsb' 4 4 = 3 →
      ¬ ((hi.extractLsb' 1 4).extractLsb' 2 2 = 2 ∧ hi.getLsbD 0 = false) →
      ∃ r ∈ opcodeRowsImm, r.order = (hi.extractLsb' 1 4).toNat + 43 ∧ r.hiHits hi = true := by decide
  have hrows : ∀ r ∈ opcodeRowsImm, r.cls = .dpImm ∧ r.mask.extractLsb' 4 8 = 0 ∧ r.pattern.extractLsb' 4 8 = 0 := by decide
  rw [catBits_key] at hc
  obtain ⟨r, hr, ho, hhi⟩ := hhi _ hc (not_psr_key hp)
  obtain ⟨hcls, hmask, hpattern⟩ := hrows r hr
  exact tableAgrees_dp (o := .imm (rotField w) (imm8Field w)) (by simp [opcodeTable, hr]) ho hhi
    (loHits_of_and_eq hmask hpattern BitVec.and_zero) (hk.trans hcls.symm) (by simp only [decodeWord, hk])

theorem tableAgrees_dpRegImmShift {w : Word} (hc : catBits w = 0 ∨ catBits w = 1) (hp : isPsrTransfer w = false)
    (h4 : w.getLsbD 4 = false) (hk : classify w = .dpRegImmShift) : TableAgrees w := by
  have hhi : ∀ hi : BitVec 8, hi.extractLsb' 4 4 = 0 ∨ hi.extractLsb' 4 4 = 1 →
      ¬ ((hi.extractLsb' 1 4).extractLsb' 2 2 = 2 ∧ hi.getLsbD 0 = false) →
      ∃ r ∈ opcodeRowsImmShift, r.order = (hi.extractLsb' 1 4).toNat + 4 ∧ r.hiHits hi = true := by decide
  have hrows : ∀ r ∈ opcodeRowsImmShift, r.cls = .dpRegImmShift ∧ r.mask.extractLsb' 4 8 = 1 ∧
      r.pattern.extractLsb' 4 8 = 0 := by decide
  have hlo : ∀ lo : BitVec 8, lo.getLsbD 0 = false → lo &&& 1 = 0 := by decide
  rw [catBits_key] at hc
  rw [bit4_key] at h4
  obtain ⟨r, hr, ho, hhi⟩ := hhi _ hc (not_psr_key hp)
  obtain ⟨hcls, hmask, hpattern⟩ := hrows r hr
  exact tableAgrees_dp (o := .immShift (shamtField w) (.ofBits (typeBits w)) (rmField w)) (by simp [opcodeTable, hr]) ho hhi
    (loHits_of_and_eq hmask hpattern (hlo _ h4)) (hk.trans hcls.symm) (by simp only [decodeWord, hk])

theorem tableAgrees_dpRegRegShift {w : Word} (hc : catBits w = 0 ∨ catBits w = 1) (hp : isPsrTransfer w = false)
    (h4 : w.getLsbD 4 = true) (h7 : w.getLsbD 7 = false) (hk : classify w = .dpRegRegShift) : TableAgrees w := by
  have hhi : ∀ hi : BitVec 8, hi.extractLsb' 4 4 = 0 ∨ hi.extractLsb' 4 4 = 1 →
      ¬ ((hi.extractLsb' 1 4).extractLsb' 2 2 = 2 ∧ hi.getLsbD 0 = false) →
      ∃ r ∈ opcodeRowsRegShift, r.order = (hi.extractLsb' 1 4).toNat + 20 ∧ r.hiHits hi = true := by decide
  have hrows : ∀ r ∈ opcodeRowsRegShift, r.cls = .dpRegRegShift ∧ r.mask.extractLsb' 4 8 = 9 ∧
      r.pattern.extractLsb' 4 8 = 1 := by decide
  have hlo : ∀ lo : BitVec 8, lo.getLsbD 0 = true → lo.getLsbD 3 = false → lo &&& 9 = 1 := by decide
  rw [catBits_key] at hc
  rw [bit4_key] at h4
  rw [bit7_key] at h7
  obtain ⟨r, hr, ho, hhi⟩ := hhi _ hc (not_psr_key hp)
  obtain ⟨hcls, hmask, hpattern⟩ := hrows r hr
  exact tableAgrees_dp (o := .regShift (rsField w) (.ofBits (typeBits w)) (rmField w)) (by simp [opcodeTable, hr]) ho hhi
    (loHits_of_and_eq hmask hpattern (hlo _ h4 h7)) (hk.trans hcls.symm) (by simp only [decodeWord, hk])

/-! #### BX and the PSR transfers -/

theorem tableAgrees_bx {w : Word} (hb : isBxWord w = true) (hk : classify w = .bx) : TableAgrees w := by
  have hfirst : ∀ q ∈ opcodeTable, ¬ q.order < 1 := by decide
  have hfirstRow := firstRow_eq_some (by decide) ((bxRow_hits w).trans hb) fun q hq h => absurd h (hfirst q hq)
  exact ⟨opcodeRowsPsrAndBx[0], hfirstRow, hk.symm, by rw [decodeWord_bx hk]; rfl⟩

/-- Of the rows before a PSR row only BX does not clash with it. -/
theorem tableAgrees_psrReg_row {w : Word} {r : OpcodeRow} (hr : r ∈ opcodeRowsPsrAndBx.tail) (hc : catBits w = 1)
    (hb : isBxWord w = false) (hp : isPsrTransfer w = true) (hk : classify w = .hook .psrReg)
    (hlo : r.loHits (keyLo w) = true) (hrow : (decodeWord w).row = r.order) : TableAgrees w := by
  have hhi : ∀ r ∈ opcodeRowsPsrAndBx.tail, ∀ hi : BitVec 8, hi.extractLsb' 4 4 = 1 →
      (hi.extractLsb' 1 4).extractLsb' 2 2 = 2 → hi.getLsbD 0 = false → r.hiHits hi = true := by decide
  have hrows : ∀ r ∈ opcodeRowsPsrAndBx.tail, r ∈ opcodeTable ∧ r.order ≠ 1 ∧ r.cls = .hook .psrReg ∧
      ∀ q ∈ opcodeTable, q.order < r.order → q = opcodeRowsPsrAndBx[0] ∨ r.clashes q = true := by decide
  obtain ⟨hmem, h1, hcls, hearlier⟩ := hrows r hr
  obtain ⟨hop, hs⟩ := isPsrTransfer_iff.1 hp
  rw [catBits_key] at hc
  rw [opcodeBits_key] at hop
  rw [sBit_key] at hs
  have hhits := (hits_bodyBits hmem h1 w).2 ⟨hhi r hr _ hc hop hs, hlo⟩
  refine ⟨r, firstRow_eq_some hmem hhits fun q hq hlt => ?_, hcls.trans hk.symm, hrow.symm⟩
  rcases hearlier q hq hlt with rfl | hclash
  · exact (bxRow_hits w).trans hb
  · exact hits_eq_false_of_clashes hclash hhits

theorem tableAgrees_psrReg {w : Word} (hc : catBits w = 1) (hb : isBxWord w = false)
    (h47 : w.getLsbD 4 = false ∨ w.getLsbD 7 = false) (hp : isPsrTransfer w = true) (hk : classify w = .hook .psrReg) :
    TableAgrees w := by
  have hclear : ∀ lo : BitVec 8, lo.getLsbD 0 = false → opcodeRowsPsrAndBx[1].loHits lo = true := by decide
  have hset : ∀ lo : BitVec 8, lo.getLsbD 0 = true → lo.getLsbD 3 = false → opcodeRowsPsrAndBx[2].loHits lo = true := by
    decide
  have hbody : (bodyBits w).getLsbD 4 = w.getLsbD 4 := getLsbD_extractLsb'_of_lt w (by decide)
  have hrow : (decodeWord w).row = if w.getLsbD 4 then 3 else 2 := by
    rw [decodeWord_hook hk, hookInstr, hbody]
    split <;> rfl
  cases h4 : w.getLsbD 4
  · exact tableAgrees_psrReg_row (r := opcodeRowsPsrAndBx[1]) (by decide) hc hb hp hk (hclear _ (by rwa [← bit4_key]))
      (by rw [hrow, h4]; rfl)
  · have h7 : w.getLsbD 7 = false := h47.resolve_left (by simp [h4])
    exact tableAgrees_psrReg_row (r := opcodeRowsPsrAndBx[2]) (by decide) hc hb hp hk
      (hset _ (by rwa [← bit4_key]) (by rwa [← bit7_key])) (by rw [hrow, h4]; rfl)

theorem tableAgrees_psrImm {w : Word} (hc : catBits w = 3) (hp : isPsrTransfer w = true) (hk : classify w = .hook .psrImm) :
    TableAgrees w := by
  have hhi : ∀ hi : BitVec 8, hi.extractLsb' 4 4 = 3 → (hi.extractLsb' 1 4).extractLsb' 2 2 = 2 → hi.getLsbD 0 = false →
      opcodeRowsExtension[6].hiHits hi = true := by decide
  have hlo : ∀ lo : BitVec 8, opcodeRowsExtension[6].loHits lo = true := by decide
  obtain ⟨hop, hs⟩ := isPsrTransfer_iff.1 hp
  rw [catBits_key] at hc
  rw [opcodeBits_key] at hop
  rw [sBit_key] at hs
  exact tableAgrees_of_clashes (r := opcodeRowsExtension[6]) (by decide) (by decide) (hhi _ hc hop hs) (hlo _) hk
    (by rw [decodeWord_hook hk]; rfl)

/-! #### The extension space -/

/-- The row of a word of the extension space: the guards of `classifyExtension` in their order. -/
def extensionRow (w : Word) : OpcodeRow :=
  if catBits w = 1 ∧ w.extractLsb' 21 3 = 0 ∧ w.extractLsb' 8 4 = 0 then opcodeRowsExtension[0]
  else if typeBits w = 0 ∧ w.extractLsb' 22 2 = 0 then opcodeRowsExtension[1]
  else if typeBits w = 0 ∧ w.getLsbD 23 = true then opcodeRowsExtension[2]
  else if w.extractLsb' 8 4 = 0 ∧ w.getLsbD 22 = false then opcodeRowsExtension[3]
  else if w.getLsbD 22 = true then opcodeRowsExtension[4]
  else opcodeRowsExtension[5]

theorem extensionRow_cls (w : Word) : (extensionRow w).cls = classifyExtension w := by
  unfold extensionRow classifyExtension
  split_ifs <;> rfl

/-- Within the extension space a row asks of bits 27 to 20 what its guard does. -/
theorem extensionRows_hiHits : ∀ hi : BitVec 8, hi.extractLsb' 4 4 = 0 ∨ hi.extractLsb' 4 4 = 1 →
    (opcodeRowsExtension[0].hiHits hi = true ↔ hi.extractLsb' 4 4 = 1 ∧ hi.extractLsb' 1 3 = 0) ∧
    (opcodeRowsExtension[1].hiHits hi = true ↔ hi.extractLsb' 2 2 = 0) ∧
    (opcodeRowsExtension[2].hiHits hi = true ↔ hi.getLsbD 3 = true) ∧
    (opcodeRowsExtension[3].hiHits hi = true ↔ hi.getLsbD 2 = false) ∧
    (opcodeRowsExtension[4].hiHits hi = true ↔ hi.getLsbD 2 = true) ∧
    opcodeRowsExtension[5].hiHits hi = true := by decide

/-- Within the extension space a row asks of bits 11 to 4 what its guard does. -/
theorem extensionRows_loHits : ∀ lo : BitVec 8, lo.getLsbD 0 = true → lo.getLsbD 3 = true →
    (opcodeRowsExtension[0].loHits lo = true ↔ lo.extractLsb' 4 4 = 0) ∧
    (opcodeRowsExtension[1].loHits lo = true ↔ lo.extractLsb' 1 2 = 0) ∧
    (opcodeRowsExtension[2].loHits lo = true ↔ lo.extractLsb' 1 2 = 0) ∧
    (opcodeRowsExtension[3].loHits lo = true ↔ lo.extractLsb' 4 4 = 0) ∧
    opcodeRowsExtension[4].loHits lo = true ∧ opcodeRowsExtension[5].loHits lo = true := by decide

/-- The rows outside the extension space that stand before it clash with its last row, which takes all of it. -/
theorem firstRow_eq_find?_extension {b : BitVec 28} (hb : opcodeRowsExtension[5].hits b = true) :
    firstRow b = opcodeRowsExtension.find? (·.hits b) := by
  have hclash : ∀ q ∈ opcodeRowsPsrAndBx ++ opcodeRowsImmShift ++ opcodeRowsRegShift,
      opcodeRowsExtension[5].clashes q = true := by decide
  have hnone : (opcodeRowsPsrAndBx ++ opcodeRowsImmShift ++ opcodeRowsRegShift).find? (·.hits b) = none :=
    List.find?_eq_none.2 fun q hq => by simp [hits_eq_false_of_clashes (hclash q hq) hb]
  have hsome : (opcodeRowsExtension.find? (·.hits b)).isSome = true :=
    List.find?_isSome.2 ⟨opcodeRowsExtension[5], by decide, hb⟩
  obtain ⟨r, hr⟩ := Option.isSome_iff_exists.1 hsome
  rw [firstRow, opcodeTable, List.find?_append, List.find?_append, List.find?_append, hnone, hr]
  rfl

/-- Within the extension space a row hits where its guard holds. -/
theorem extensionRows_hits {w : Word} (hc : catBits w = 0 ∨ catBits w = 1) (h4 : w.getLsbD 4 = true)
    (h7 : w.getLsbD 7 = true) :
    (opcodeRowsExtension[0].hits (bodyBits w) = true ↔ catBits w = 1 ∧ w.extractLsb' 21 3 = 0 ∧ w.extractLsb' 8 4 = 0) ∧
    (opcodeRowsExtension[1].hits (bodyBits w) = true ↔ typeBits w = 0 ∧ w.extractLsb' 22 2 = 0) ∧
    (opcodeRowsExtension[2].hits (bodyBits w) = true ↔ typeBits w = 0 ∧ w.getLsbD 23 = true) ∧
    (opcodeRowsExtension[3].hits (bodyBits w) = true ↔ w.extractLsb' 8 4 = 0 ∧ w.getLsbD 22 = false) ∧
    (opcodeRowsExtension[4].hits (bodyBits w) = true ↔ w.getLsbD 22 = true) ∧
    opcodeRowsExtension[5].hits (bodyBits w) = true := by
  have hrows : ∀ r ∈ opcodeRowsExtension, r ∈ opcodeTable ∧ r.order ≠ 1 := by decide
  have hits (i : Nat) (hi : i < opcodeRowsExtension.length) := hits_bodyBits (hrows _ (List.getElem_mem hi)).1
    (hrows _ (List.getElem_mem hi)).2 w
  rw [catBits_key] at hc
  rw [bit4_key] at h4
  rw [bit7_key] at h7
  obtain ⟨hi0, hi1, hi2, hi3, hi4, hi5⟩ := extensionRows_hiHits _ hc
  obtain ⟨lo0, lo1, lo2, lo3, lo4, lo5⟩ := extensionRows_loHits _ h4 h7
  rw [catBits_key, bits23to21_key, bits11to8_key, typeBits_key, bits23to22_key, bit23_key, bit22_key, hits, hits, hits, hits,
    hits, hits, hi0, hi1, hi2, hi3, hi4, lo0, lo1, lo2, lo3]
  exact ⟨and_assoc, and_comm, and_comm, and_comm, and_iff_left lo4, hi5, lo5⟩

theorem find?_hits_cons {r : OpcodeRow} {l : List OpcodeRow} {b : BitVec 28} {g : Prop} [Decidable g]
    (h : r.hits b = true ↔ g) : (r :: l).find? (·.hits b) = if g then some r else l.find? (·.hits b) := by
  split_ifs with hg
  · exact List.find?_cons_of_pos (h.2 hg)
  · exact List.find?_cons_of_neg (mt h.1 hg)

theorem firstRow_extension {w : Word} (hc : catBits w = 0 ∨ catBits w = 1) (h4 : w.getLsbD 4 = true)
    (h7 : w.getLsbD 7 = true) : firstRow (bodyBits w) = some (extensionRow w) := by
  obtain ⟨hswp, hmul, hmull, hhtReg, hhtImm, hundef⟩ := extensionRows_hits hc h4 h7
  calc firstRow (bodyBits w) = opcodeRowsExtension.find? (·.hits (bodyBits w)) := firstRow_eq_find?_extension hundef
    _ = List.find? (·.hits (bodyBits w)) [opcodeRowsExtension[0], opcodeRowsExtension[1], opcodeRowsExtension[2],
          opcodeRowsExtension[3], opcodeRowsExtension[4], opcodeRowsExtension[5], opcodeRowsExtension[6]] := rfl
    _ = some (extensionRow w) := by
      rw [find?_hits_cons hswp, find?_hits_cons hmul, find?_hits_cons hmull, find?_hits_cons hhtReg,
        find?_hits_cons hhtImm, find?_hits_cons (iff_true_intro hundef)]
      simp only [extensionRow, apply_ite some, if_true]

theorem tableAgrees_extension {w : Word} (hc : catBits w = 0 ∨ catBits w = 1) (h4 : w.getLsbD 4 = true)
    (h7 : w.getLsbD 7 = true) (hk : classify w = classifyExtension w) : TableAgrees w := by
  refine ⟨extensionRow w, firstRow_extension hc h4 h7, (extensionRow_cls w).trans hk.symm, ?_⟩
  unfold classifyExtension at hk
  unfold extensionRow
  split_ifs at hk ⊢
  case neg =>
    rw [decodeWord_undefined hk, undefinedInstr, catBits_bodyBits]
    rcases hc with hc | hc <;> rw [hc] <;> rfl
  all_goals rw [decodeWord_hook hk]; rfl

/-- Every leaf of the tree is a row of the table. -/
theorem tableAgrees (w : Word) : TableAgrees w := by
  cases treeLeaf w with
  | bx _ hb hk => exact tableAgrees_bx hb hk
  | psrReg hc hb h47 hp hk => exact tableAgrees_psrReg hc hb h47 hp hk
  | dpRegImmShift hc hp h4 hk => exact tableAgrees_dpRegImmShift hc hp h4 hk
  | dpRegRegShift hc hp h4 h7 hk => exact tableAgrees_dpRegRegShift hc hp h4 h7 hk
  | extension hc h4 h7 hk => exact tableAgrees_extension hc h4 h7 hk
  | psrImm hc hp hk => exact tableAgrees_psrImm hc hp hk
  | dpImm hc hp hk => exact tableAgrees_dpImm hc hp hk
  | sdtImmPost hc hk => exact tableAgrees_category (r := opcodeRowsUpper[0]) (by decide) (fun _ _ => rfl) hc hk
  | sdtImmPre hc hk => exact tableAgrees_category (r := opcodeRowsUpper[1]) (by decide) (fun _ _ => rfl) hc hk
  | sdtRegPost hc h4 hk => exact tableAgrees_categoryBit4 (r := opcodeRowsUpper[2]) (by decide) (fun _ _ => rfl) hc h4 hk
  | undefCat6 hc h4 hk =>
    have hrow (c body) (h : body.extractLsb' 24 4 = 6) : (undefinedInstr c body).row = opcodeRowsUpper[3].order := by
      rw [undefinedInstr, h]; rfl
    exact tableAgrees_categoryUndefined (by decide) hrow hc h4 hk
  | sdtRegPre hc h4 hk => exact tableAgrees_categoryBit4 (r := opcodeRowsUpper[4]) (by decide) (fun _ _ => rfl) hc h4 hk
  | undefCat7 hc h4 hk =>
    have hrow (c body) (h : body.extractLsb' 24 4 = 7) : (undefinedInstr c body).row = opcodeRowsUpper[5].order := by
      rw [undefinedInstr, h]; rfl
    exact tableAgrees_categoryUndefined (by decide) hrow hc h4 hk
  | bdtPost hc hk => exact tableAgrees_category (r := opcodeRowsUpper[6]) (by decide) (fun _ _ => rfl) hc hk
  | bdtPre hc hk => exact tableAgrees_category (r := opcodeRowsUpper[7]) (by decide) (fun _ _ => rfl) hc hk
  | b hc hk => exact tableAgrees_category (r := opcodeRowsUpper[8]) (by decide) (fun _ _ => rfl) hc hk
  | bl hc hk => exact tableAgrees_category (r := opcodeRowsUpper[9]) (by decide) (fun _ _ => rfl) hc hk
  | cdtPost hc hk => exact tableAgrees_category (r := opcodeRowsUpper[10]) (by decide) (fun _ _ => rfl) hc hk
  | cdtPre hc hk => exact tableAgrees_category (r := opcodeRowsUpper[11]) (by decide) (fun _ _ => rfl) hc hk
  | cdo hc h4 hk => exact tableAgrees_categoryBit4 (r := opcodeRowsUpper[12]) (by decide) (fun _ _ => rfl) hc h4 hk
  | crt hc h4 hk => exact tableAgrees_categoryBit4 (r := opcodeRowsUpper[13]) (by decide) (fun _ _ => rfl) hc h4 hk
  | swi hc hk => exact tableAgrees_category (r := opcodeRowsUpper[14]) (by decide) (fun _ _ => rfl) hc hk

/-! ### Round trips -/

theorem hookInstr_body? (k : HookClass) (c : Cond) (body : BitVec 28) : (hookInstr k c body).body? = some body := by
  cases k
  case psrReg => simp only [hookInstr]; split <;> rfl
  all_goals rfl

theorem undefinedInstr_body? (c : Cond) (body : BitVec 28) : (undefinedInstr c body).body? = some body := by
  simp only [undefinedInstr]; split <;> rfl

theorem encode_decodeWord_of_body? {w : Word} {b : BitVec 28} (h : (decodeWord w).body? = some b) :
    encode (decodeWord w) = w := by
  rw [encode_of_body? h, decodeWord_cond, decodeWord_body? h, bodyWord_fields]

/-- The guards of a leaf are the fixed bits of its format, the rest of the word are its fields. -/
theorem encode_decodeWord (w : Word) : encode (decodeWord w) = w := by
  have hhook {k} (hk : classify w = .hook k) : encode (decodeWord w) = w :=
    encode_decodeWord_of_body? (by rw [decodeWord_hook hk, hookInstr_body?])
  have hundef (hk : classify w = .undefined) : encode (decodeWord w) = w :=
    encode_decodeWord_of_body? (by rw [decodeWord_undefined hk, undefinedInstr_body?])
  cases treeLeaf w with
  | dpImm hc _ hk =>
    have h25 : w.extractLsb' 25 3 = 0b001#3 := by rcases hc with hc | hc <;> exact catBits_high hc
    simp only [decodeWord, hk, encode_dp (sBit_of_test (.inl hk)), dpWord]
    exact dpImmWord_fields h25
  | dpRegImmShift hc _ h4 hk =>
    have h25 : w.extractLsb' 25 3 = 0b000#3 := by rcases hc with hc | hc <;> exact catBits_high hc
    simp only [decodeWord, hk, encode_dp (sBit_of_test (.inr (.inl hk))), dpWord]
    exact dpImmShiftWord_fields h25 h4
  | dpRegRegShift hc _ h4 h7 hk =>
    have h25 : w.extractLsb' 25 3 = 0b000#3 := by rcases hc with hc | hc <;> exact catBits_high hc
    simp only [decodeWord, hk, encode_dp (sBit_of_test (.inr (.inr hk))), dpWord]
    exact dpRegShiftWord_fields h25 h4 h7
  | bx _ hb hk =>
    rw [decodeWord_bx hk]
    exact bxWord_fields hb
  | extension _ _ _ hk =>
    unfold classifyExtension at hk
    split_ifs at hk
    case neg => exact hundef hk
    all_goals exact hhook hk
  | undefCat6 _ _ hk | undefCat7 _ _ hk => exact hundef hk
  | psrReg _ _ _ _ hk | psrImm _ _ hk | sdtRegPost _ _ hk | sdtRegPre _ _ hk | cdo _ _ hk | crt _ _ hk | sdtImmPost _ hk
  | sdtImmPre _ hk | bdtPost _ hk | bdtPre _ hk | b _ hk | bl _ hk | cdtPost _ hk | cdtPre _ hk | swi _ hk => exact hhook hk

theorem decodeWord_dpWord {op : Opcode} {sf : Bool} (ht : isTest op = true → sf = true) (c rn rd o) :
    decodeWord (dpWord op c sf rn rd o) = .dp op c sf rn rd o := by
  cases o with
  | imm rot imm8 => simp [dpWord, decodeWord, classify_dpImmWord ht, cond_roundtrip, opcode_roundtrip]
  | immShift n ty rm =>
    simp [dpWord, decodeWord, classify_dpImmShiftWord ht, cond_roundtrip, opcode_roundtrip, shiftType_roundtrip]
  | regShift rs ty rm =>
    simp [dpWord, decodeWord, classify_dpRegShiftWord ht, cond_roundtrip, opcode_roundtrip, shiftType_roundtrip]

theorem decodeWord_bxWord (c rm) : decodeWord (bxWord c rm) = .bx c rm := by
  rw [decodeWord_bx (classify_bxWord c rm), condBits_bxWord, rmField_bxWord, cond_roundtrip]

theorem isSome_bodyInstr (i : Instr) (c : Cond) (body : BitVec 28) : (bodyInstr i.row c body).isSome = i.body?.isSome := by
  cases i <;> rfl

theorem wellFormed_iff {i : Instr} {b : BitVec 28} (h : i.body? = some b) :
    i.WellFormed ↔ (firstRow b).map (·.order) = some i.row := by
  rw [Instr.WellFormed, Instr.wellFormed, h]
  exact beq_iff_eq

theorem decodeWord_wellFormed (w : Word) : (decodeWord w).WellFormed := by
  cases hb : (decodeWord w).body? with
  | none => rw [Instr.WellFormed, Instr.wellFormed, hb]
  | some b =>
    obtain ⟨r, hr, -, ho⟩ := tableAgrees w
    rw [wellFormed_iff hb, decodeWord_body? hb, hr, Option.map_some, ho]

/-- A well-formed instruction that carries bits is the one its bits decode to: the table gives both the same row. -/
theorem decodeWord_bodyWord {i : Instr} {b : BitVec 28} (hb : i.body? = some b) (hi : i.WellFormed) :
    decodeWord (bodyWord i.cond b) = i := by
  obtain ⟨r, hr, -, ho⟩ := tableAgrees (bodyWord i.cond b)
  have hrow : (decodeWord (bodyWord i.cond b)).row = i.row := by
    rw [wellFormed_iff hb] at hi
    rw [bodyBits_bodyWord] at hr
    rw [hr] at hi
    rw [← ho]
    exact Option.some.inj hi
  have hcond : (decodeWord (bodyWord i.cond b)).cond = i.cond := by
    rw [decodeWord_cond, condBits_bodyWord, cond_roundtrip]
  obtain ⟨b', hb'⟩ : ∃ b', (decodeWord (bodyWord i.cond b)).body? = some b' := by
    rw [← Option.isSome_iff_exists, ← isSome_bodyInstr _ i.cond b, hrow, bodyInstr_of_body? hb]
    rfl
  obtain rfl : b' = b := by rw [decodeWord_body? hb', bodyBits_bodyWord]
  have hj := bodyInstr_of_body? hb'
  rw [hrow, hcond, bodyInstr_of_body? hb] at hj
  exact (Option.some.inj hj).symm

end Sys2Proof

namespace Sys2Proof.Machine

theorem dataProcess_of_op1_unused {alu : Word → Word → Bool → AluResult} (h : ∀ a a' b cin, alu a b cin = alu a' b cin)
    (c sf r r' rd o s) : dataProcess alu c sf r rd o s = dataProcess alu c sf r' rd o s := by
  have halu (sf') : dpAlu alu sf' r o s = dpAlu alu sf' r' o s := h ..
  simp only [dataProcess, dpSetFlags, halu]

/-- A writing opcode whose ALU operation does not use op1 does not read Rn. -/
theorem exec_dp_of_op1_unused {op : Opcode} (hop : isTest op = false) (h : ∀ a a' b cin, aluOf op a b cin = aluOf op a' b cin)
    (c sf r r' rd o s) : exec (.dp op c sf r rd o) s = exec (.dp op c sf r' rd o) s := by
  rw [exec_dp_write hop, exec_dp_write hop]
  exact dataProcess_of_op1_unused h ..

end Sys2Proof.Machine

/-! ### The statements -/

namespace Sys2Proof.Proofs

open Sys2Proof.Machine

/-- Settles O1: an instruction that carries no bits is read back field by field; one that carries bits is the only one of its
row, which the table and the decoder agree on. -/
theorem decodeOfEncodeIsTheInstruction : Obligations.DecodeOfEncodeIsTheInstruction := by
  intro i hi
  cases hb : i.body? with
  | some b => rw [encode_of_body? hb, decodeWord_bodyWord hb hi]
  | none =>
    rcases dp_or_bx_of_body? hb with ⟨c, rm, rfl⟩ | ⟨op, c, sf, rn, rd, o, ht, rfl⟩
    · exact decodeWord_bxWord c rm
    · rw [encode_dp ht, decodeWord_dpWord ht]

/-- Settles O2: the bits a decoded instruction carries are of the row the table gives them, and a word is the encoding of its
own fields. -/
theorem encodeOfDecodeIsTheWord : Obligations.EncodeOfDecodeIsTheWord :=
  fun w => ⟨decodeWord_wellFormed w, encode_decodeWord w⟩

/-- Settles O3, leaf by leaf of the decode tree. -/
theorem opcodeTableAgreesWithDecodeTree : Obligations.OpcodeTableAgreesWithDecodeTree := tableAgrees

/-- Settles O4, from the leaves of the decode tree that have class `UNDEFINED`. -/
theorem undefinedWordsAreExactlyThese : Obligations.UndefinedWordsAreExactlyThese := by
  intro w
  rw [classify_eq_undefined, classifyExtension_eq_undefined]

/-- Settles O5, from the leaves of the decode tree that have a PSR-transfer class. -/
theorem psrTransferWordsAreExactlyThese : Obligations.PsrTransferWordsAreExactlyThese := by
  intro w
  rw [classify_eq_psrReg, classify_eq_psrImm, isPsrTransfer_iff, and_assoc, isBxWord, beq_eq_false_iff_ne]
  exact ⟨Iff.rfl, Iff.rfl⟩

/-- Settles O6: the three fields are the key, of which the class is a function. -/
theorem classDependsOnlyOnTheKeyBits : Obligations.ClassDependsOnlyOnTheKeyBits :=
  fun _ _ hhi hlo hones => classify_congr hhi hlo hones

/-- Settles O7: the decoder runs on the nine words. -/
theorem specWordsDecode : Obligations.SpecWordsDecode :=
  ⟨rfl, rfl, rfl, rfl, rfl, rfl, rfl, rfl, rfl⟩

/-- Settles O37: MOV and MVN do not use their first operand, and a test writes no register. -/
theorem ignoredFieldsHaveNoEffect : Obligations.IgnoredFieldsHaveNoEffect := by
  intro c sf r r' rn rd o s
  refine ⟨exec_dp_of_op1_unused rfl (fun _ _ _ _ => rfl) .., exec_dp_of_op1_unused rfl (fun _ _ _ _ => rfl) ..,
    fun op hop => ?_⟩
  rw [exec_dp_test hop, exec_dp_test hop]
  rfl

end Sys2Proof.Proofs
end

section
/-! The statements of 40_condition_dispatch.md: the condition evaluator, the condition gate, and which outcome a step has. The
lemmas come first, then the proofs that settle the statements. -/

namespace Sys2Proof.Machine

open Sys2Proof.Claims

/-! ### The condition gate -/

/-- Every row's meaning is the condition gate around what the instruction does (R111). -/
theorem exec_of_failing {i : Instr} {s : State} (h : condPass i.cond s.cpsr = false) : exec i s = .next (advance s) := by
  cases i <;> exact gated_fail h _

theorem step_of_failing {s : State} (harm : s.cpsr.t = false)
    (hc : condPass (.ofBits (condBits (fetch s))) s.cpsr = false) : step s = .next (advance s) := by
  rw [step_of_arm harm]
  exact exec_of_failing (by rwa [decodeWord_cond])

/-- The decoder over the four bytes at the pc gives the fetched word's instruction (R52). -/
theorem decode_bytes_at_pc (s : State) :
    decode [readByte s.code s.pc, readByte s.code (s.pc + 1), readByte s.code (s.pc + 2), readByte s.code (s.pc + 3)] =
      .ok (decodeWord (fetch s), []) := by
  rw [fetch, memRead_four, decode]

/-! ### The outcome of a step, by the class of its word -/

theorem gated_retire (c : Cond) (s : State) (p : Progress) : ∃ t, gated c s (retire p) = .next t := by
  cases hc : condPass c s.cpsr
  · exact ⟨_, gated_fail hc _⟩
  · exact ⟨_, gated_pass hc _⟩

/-- A data-processing word or BX retires, whether its condition passes or not. -/
theorem step_of_dp_or_bx {s : State} (harm : s.cpsr.t = false) (h : isDpWord (fetch s) ∨ classify (fetch s) = .bx) :
    ∃ t, step s = .next t := by
  rw [step_of_arm harm]
  rcases h with hd | hb
  · obtain ⟨o, ho⟩ := decodeWord_dp hd
    rw [ho]
    cases htest : isTest (.ofBits (opcodeBits (fetch s)))
    · rw [exec_dp_write htest]
      exact gated_retire ..
    · rw [exec_dp_test htest]
      exact gated_retire ..
  · rw [decodeWord_bx hb]
    exact gated_retire ..

theorem step_of_hook {s : State} {k : HookClass} (harm : s.cpsr.t = false)
    (hc : condPass (.ofBits (condBits (fetch s))) s.cpsr = true) (hk : classify (fetch s) = .hook k) :
    step s = .refused (.hook k (fetch s)) := by
  rw [step_of_arm harm, decodeWord_hook hk, exec_hookInstr, gated_pass hc, bodyWord_fields, hook]

theorem step_of_undefined {s : State} (harm : s.cpsr.t = false)
    (hc : condPass (.ofBits (condBits (fetch s))) s.cpsr = true) (hu : classify (fetch s) = .undefined) :
    step s = .fault (.undefined (fetch s)) := by
  rw [step_of_arm harm, decodeWord_undefined hu, exec_undefinedInstr, gated_pass hc, bodyWord_fields, undefinedTrap]

theorem step_ne_thumbState_of_arm {s : State} (harm : s.cpsr.t = false) : step s ≠ .refused .thumbState := by
  cases hc : condPass (.ofBits (condBits (fetch s))) s.cpsr
  · simp [step_of_failing harm hc]
  · rcases class_cases (fetch s) with hd | hb | ⟨k, hk⟩ | hu
    · obtain ⟨t, ht⟩ := step_of_dp_or_bx harm (.inl hd)
      simp [ht]
    · obtain ⟨t, ht⟩ := step_of_dp_or_bx harm (.inr hb)
      simp [ht]
    · simp [step_of_hook harm hc hk]
    · simp [step_of_undefined harm hc hu]

/-! ### The flags of a subtraction -/

/-- The word of a sum differs from the exact signed sum exactly when that leaves the signed range (R172). -/
theorem decide_ne_toInt_ofInt (x : Int) : decide (x ≠ (BitVec.ofInt 32 x).toInt) = overflows x := by
  rw [overflows, decide_eq_decide, BitVec.toInt_ofInt, Int.bmod_def]
  omega

theorem addWithCarry_value_eq_ofInt (a b : Word) (c : Bool) :
    (addWithCarry a b c).value = BitVec.ofInt 32 (a.toInt + b.toInt + c.toNat) := by
  rw [addWithCarry_value, BitVec.ofInt_add, BitVec.ofInt_add, BitVec.ofInt_toInt, BitVec.ofInt_toInt, BitVec.ofInt_natCast]
  cases c <;> rfl

theorem addWithCarry_arith (a b : Word) (c : Bool) : (addWithCarry a b c).arith =
    some (decide (2 ^ 32 ≤ a.toNat + b.toNat + c.toNat), overflows (a.toInt + b.toInt + c.toNat)) := by
  rw [← decide_ne_toInt_ofInt, ← addWithCarry_value_eq_ofInt]
  rfl

/-- C is "no borrow", V the overflow of the exact signed difference (R173). -/
theorem subWithCarry_arith (a b : Word) (c : Bool) : (subWithCarry a b c).arith =
    some (decide (b.toNat + (!c).toNat ≤ a.toNat), overflows (a.toInt - b.toInt - (!c).toNat)) := by
  have hcarry : 2 ^ 32 ≤ a.toNat + (~~~b).toNat + c.toNat ↔ b.toNat + (!c).toNat ≤ a.toNat := by
    have := b.isLt
    rw [BitVec.toNat_not]
    cases c <;> simp <;> omega
  have hsum : a.toInt + (~~~b).toInt + c.toNat = a.toInt - b.toInt - (!c).toNat := by
    rw [not_toInt]
    cases c <;> simp <;> omega
  rw [subWithCarry, addWithCarry_arith, hsum, decide_eq_decide.2 hcarry]

/-- A subtraction writes all four flags, whatever the operand path yields. -/
theorem dpStatus_subWithCarry (shifterC : Option Bool) (a b : Word) (c : Bool) (f : Status) :
    dpStatus shifterC (subWithCarry a b c) f = differenceFlags a b c f := by
  have hvalue : (subWithCarry a b c).value = difference a b c := by
    rw [subWithCarry_value]
    cases c <;> rfl
  simp only [dpStatus, subWithCarry_arith, hvalue, BitVec.msb_eq_getLsbD_last]
  cases shifterC <;> rfl

/-! ### The order of the operands of a compare -/

section
variable (a b : Word) (f : Status)

theorem difference_true : difference a b true = a - b := BitVec.sub_zero _

theorem differenceFlags_true_z : (differenceFlags a b true f).z = decide (a = b) := by
  show decide (difference a b true = 0) = decide (a = b)
  rw [difference_true, decide_eq_decide]
  exact sub_eq_zero

theorem differenceFlags_true_c : (differenceFlags a b true f).c = decide (b.toNat ≤ a.toNat) := rfl

/-- N is the sign of the exact difference, turned round exactly when V is set (R114). -/
theorem differenceFlags_true_n_beq_v :
    ((differenceFlags a b true f).n == (differenceFlags a b true f).v) = decide (b.toInt ≤ a.toInt) := by
  show ((difference a b true).getLsbD 31 == overflows (a.toInt - b.toInt - (0 : Nat))) = _
  have hn : (difference a b true).getLsbD 31 = decide ((a.toInt - b.toInt).bmod (2 ^ 32) < 0) := by
    rw [difference_true, ← BitVec.toInt_sub, ← BitVec.msb_eq_toInt, BitVec.msb_eq_getLsbD_last]
  have ha := a.toInt_lt
  have ha' := a.le_toInt
  have hb := b.toInt_lt
  have hb' := b.le_toInt
  rw [hn, overflows, Int.bmod_def, Bool.eq_iff_iff, beq_iff_eq, decide_eq_decide, decide_eq_true_iff]
  omega

end

/-- The state after a compare whose condition passes: N, Z, C and V of the difference of its operands (R184). -/
theorem exec_cmp {c : Cond} {s : State} (hc : condPass c s.cpsr = true) (sf : Bool) (rn rd : RegIdx) (o : Operand2) :
    ∃ t, exec (.dp .cmp c sf rn rd o) s = .next t ∧
      t.cpsr = differenceFlags (regRead rn s) (operand2 o true s).value true s.cpsr := by
  refine ⟨advance (dpSetFlags aluCmp rn o s), ?_, dpStatus_subWithCarry ..⟩
  rw [exec_dp_test rfl, dataTest, gated_pass hc, retire_stored, aluOf]

end Sys2Proof.Machine

/-! ### The statements -/

namespace Sys2Proof.Proofs

open Sys2Proof.Machine Sys2Proof.Claims

/-- Settles O19: after a compare Z, C and N = V are equality, unsigned order and signed order, of which the ten predicates are
made. -/
theorem compareThenConditionsReadTheOrder : Obligations.CompareThenConditionsReadTheOrder := by
  intro c sf rn rd o s hc a b
  obtain ⟨t, ht, hflags⟩ := exec_cmp hc sf rn rd o
  have hz : t.cpsr.z = decide (a = b) := hflags ▸ differenceFlags_true_z a b s.cpsr
  have hcarry : t.cpsr.c = decide (b.toNat ≤ a.toNat) := hflags ▸ differenceFlags_true_c a b s.cpsr
  have hnv : (t.cpsr.n == t.cpsr.v) = decide (b.toInt ≤ a.toInt) := hflags ▸ differenceFlags_true_n_beq_v a b s.cpsr
  clear_value a b
  have heq : a.toInt = b.toInt ↔ a.toNat = b.toNat := by rw [BitVec.toInt_inj, BitVec.toNat_inj]
  refine ⟨t, ht, ?_⟩
  simp only [condPass, condPassWith, hz, hcarry, hnv, bne, ne_eq, ← BitVec.toNat_inj, Bool.and_eq_true, Bool.or_eq_true,
    Bool.not_eq_true', decide_eq_true_iff, decide_eq_false_iff_not, true_and]
  omega

/-- Settles O14, from the outcome of each class. -/
theorem stepOutcomeIsDecidedByTheClass : Obligations.StepOutcomeIsDecidedByTheClass :=
  fun _ harm hc => ⟨step_of_dp_or_bx harm, fun _ => step_of_hook harm hc, step_of_undefined harm hc⟩

/-- Settles O11: with T = 0 no class of word gives that refusal. -/
theorem thumbRefusalExactlyWhenModeSet : Obligations.ThumbRefusalExactlyWhenModeSet := by
  intro s
  refine ⟨fun h => ?_, step_of_thumb⟩
  by_contra ht
  exact step_ne_thumbState_of_arm (Bool.eq_false_of_not_eq_true ht) h

/-- Settles O12: the condition of the decoded word is the word's condition field. -/
theorem failingConditionSkipsAnyWord : Obligations.FailingConditionSkipsAnyWord :=
  fun _ harm hc => step_of_failing harm hc

/-- Settles O9: the four bytes are the word the step fetches. -/
theorem stepRunsTheDecodedInstruction : Obligations.StepRunsTheDecodedInstruction := by
  intro s i rest harm h
  rw [decode_bytes_at_pc] at h
  obtain ⟨rfl, -⟩ := Prod.mk.inj (Except.ok.inj h)
  exact step_of_arm harm

/-- Settles O13: every row is gated by its condition. -/
theorem everyRowRetiresWhenItsConditionFails : Obligations.EveryRowRetiresWhenItsConditionFails :=
  fun _ _ h => exec_of_failing h

/-- Settles O17: the evaluator computes on each code. -/
theorem conditionTable : Obligations.ConditionTable := fun _ => ⟨rfl, rfl, fun _ => rfl⟩

/-- Settles O18: an odd code's predicate negates its even neighbour's, which for HI and GT is De Morgan's law. -/
theorem conditionPairsAreComplements : Obligations.ConditionPairsAreComplements := by
  intro f
  refine ⟨fun k hk => ?_, rfl, rfl⟩
  match k, hk with
  | 0, _ | 1, _ | 2, _ | 3, _ | 5, _ => exact (Bool.not_not _).symm
  | 4, _ =>
    show (f.c && !f.z) = !(!f.c || f.z)
    rw [Bool.not_or, Bool.not_not]
  | 6, _ =>
    show (!f.z && f.n == f.v) = !(f.z || f.n != f.v)
    rw [Bool.not_or, bne, Bool.not_not]

end Sys2Proof.Proofs
end

section
/-! The statements of 41_register_pc_access.md: what a read of register 15 gives and what a write of it does. The lemmas come
first, then the proofs that settle the statements. -/

namespace Sys2Proof.Machine

/-! ### Writing Rd -/

theorem alignFor_eq_and (t : Bool) (v : Word) : alignFor t v = v &&& (if t then 0xFFFFFFFE else 0xFFFFFFFC) := by
  cases t <;> rfl

section
variable {op : Opcode} {c : Cond} {s : State} (hop : isTest op = false) (hc : condPass c s.cpsr = true)
  (rn : RegIdx) (o : Operand2)
include hop hc

/-- A writing opcode whose condition passes stores the ALU's value in an Rd below 15 (R170). -/
theorem exec_dp_stored (sf : Bool) {rd : RegIdx} (hi : rd.val < 15) :
    exec (.dp op c sf rn rd o) s = .next (advance (storeReg rd.val hi (dpAlu (aluOf op) sf rn o s).value
      (if sf then dpSetFlags (aluOf op) rn o s else s))) := by
  rw [exec_dp_write hop, dataProcess, gated_pass hc, writeReg_stored hi, writeRegS_stored hi]
  cases sf <;> rfl

/-- The value an Rd below 15 is left with, whichever Rd it is. -/
theorem exec_dp_leaves_value (sf : Bool) (rd : RegIdx) (hi : rd.val < 15) :
    ∃ t, exec (.dp op c sf rn rd o) s = .next t ∧ t.regs[rd.val] = (dpAlu (aluOf op) sf rn o s).value :=
  ⟨_, exec_dp_stored hop hc rn o sf hi, by simp⟩

/-- With S = 0 the same value, written to register 15, is a branch target (R131). -/
theorem exec_dp_branch :
    exec (.dp op c false rn 15 o) s = .next { s with pc := alignWord (dpAlu (aluOf op) false rn o s).value } := by
  rw [exec_dp_write hop, dataProcess, gated_pass hc]
  rfl

/-- With S = 1 it is the target of a return from exception, which discards the flag update (R132, R133). -/
theorem exec_dp_exceptionReturn :
    exec (.dp op c true rn 15 o) s =
      .next { s with cpsr := s.spsr, pc := alignFor s.spsr.t (dpAlu (aluOf op) true rn o s).value } := by
  rw [exec_dp_write hop, dataProcess, gated_pass hc]
  rfl

end

/-! ### Reading the operands -/

/-- A data-processing instruction reads Rn and its second operand's registers for their values only (R170). -/
theorem exec_dp_congr {rn rn' : RegIdx} {o o' : Operand2} {s : State} (hrn : regRead rn s = regRead rn' s)
    (ho : ∀ sf, operand2 o sf s = operand2 o' sf s) (op : Opcode) (c : Cond) (sf : Bool) (rd : RegIdx) :
    exec (.dp op c sf rn rd o) s = exec (.dp op c sf rn' rd o') s := by
  have halu (sf') : dpAlu (aluOf op) sf' rn o s = dpAlu (aluOf op) sf' rn' o' s := by rw [dpAlu, dpAlu, hrn, ho]
  have hflags : dpSetFlags (aluOf op) rn o s = dpSetFlags (aluOf op) rn' o' s := by
    rw [dpSetFlags, dpSetFlags, halu, ho]
  cases hop : isTest op
  · rw [exec_dp_write hop, exec_dp_write hop, dataProcess, dataProcess, halu, halu, hflags]
  · rw [exec_dp_test hop, exec_dp_test hop, dataTest, dataTest, hflags]

theorem operand2_immShift_congr {rm rm' : RegIdx} {s : State} (h : regRead rm s = regRead rm' s) (n : BitVec 5)
    (ty : ShiftType) (sf : Bool) : operand2 (.immShift n ty rm) sf s = operand2 (.immShift n ty rm') sf s := by
  simp only [operand2, h]

theorem operand2_regShift_congr {rs rs' rm rm' : RegIdx} {s : State} (hs : regRead rs s = regRead rs' s)
    (hm : regRead rm s = regRead rm' s) (ty : ShiftType) (sf : Bool) :
    operand2 (.regShift rs ty rm) sf s = operand2 (.regShift rs' ty rm') sf s := by
  simp only [operand2, hs, hm]

theorem exec_bx_congr {rm rm' : RegIdx} {s : State} (h : regRead rm s = regRead rm' s) (c : Cond) :
    exec (.bx c rm) s = exec (.bx c rm') s := by
  show execBx c rm s = execBx c rm' s
  rw [execBx, execBx, h]

/-- An immediate that is not rotated (R140). -/
theorem operand2_imm_unrotated (imm8 : Byte) (sf : Bool) (s : State) :
    (operand2 (.imm 0 imm8) sf s).value = imm8.zeroExtend 32 := rfl

theorem dpAlu_add_value (sf : Bool) (rn : RegIdx) (o : Operand2) (s : State) :
    (dpAlu (aluOf .add) sf rn o s).value = regRead rn s + (operand2 o sf s).value :=
  (addWithCarry_value ..).trans (BitVec.add_zero _)

end Sys2Proof.Machine

/-! ### The statements -/

namespace Sys2Proof.Proofs

open Sys2Proof.Machine

/-- Settles O33: the value any other Rd is left with is the target of the return from exception. -/
theorem exceptionReturnRestoresStatusAndBranches : Obligations.ExceptionReturnRestoresStatusAndBranches := by
  intro op c rn o s hop hc
  refine ⟨_, exec_dp_leaves_value hop hc rn o true, ?_⟩
  rw [exec_dp_exceptionReturn hop hc, alignFor_eq_and]

/-- Settles O34: the value any other Rd is left with is the target of the branch. -/
theorem pcWriteWithoutSIsAPlainBranch : Obligations.PcWriteWithoutSIsAPlainBranch :=
  fun _ _ rn o _ hop hc => ⟨_, exec_dp_leaves_value hop hc rn o false, exec_dp_branch hop hc rn o⟩

/-- Settles O35: the two registers read the same, and each operand position is a read. -/
theorem everyOperandPositionReadsPcPlusFour : Obligations.EveryOperandPositionReadsPcPlusFour := by
  intro r hr s hpc op c sf rn rd rs rm n ty o
  have h : regRead 15 s = regRead r s := by rw [regRead_pc, regRead_stored hr, hpc]
  exact ⟨exec_dp_congr h (fun _ => rfl) ..,
    exec_dp_congr rfl (operand2_immShift_congr h n ty) ..,
    exec_dp_congr rfl (operand2_regShift_congr rfl h ty) ..,
    exec_dp_congr rfl (operand2_regShift_congr h rfl ty) ..,
    exec_bx_congr h c⟩

/-- Settles O36: the branch of `ADD` with Rd = 15, its operands the pc plus 4 and the unrotated immediate. -/
theorem addImmediateToPcBranchesRelative : Obligations.AddImmediateToPcBranchesRelative := by
  intro c imm8 s hc
  have h := exec_dp_branch (op := .add) rfl hc 15 (.imm 0 imm8)
  rwa [dpAlu_add_value, regRead_pc, operand2_imm_unrotated] at h

end Sys2Proof.Proofs
end

section
/-! The statements of 42_operand2_shifter.md: the value and the carry of the second operand. The lemmas come first, then the
proofs that settle the statements. -/

namespace Sys2Proof.Machine

/-! ### The rotated immediate -/

theorem immValue_bit (rot : BitVec 4) (imm8 : Byte) {k : Nat} (hk : k < 32) :
    (immValue rot imm8).getLsbD k = (imm8.zeroExtend 32).getLsbD ((k + 2 * rot.toNat) % 32) :=
  ror32_bit _ (by have := rot.isLt; omega) hk

/-- The top bit of a rotated immediate is the last bit the rotation carried out at the bottom (R141). -/
theorem immValue_msb {rot : BitVec 4} (hrot : rot ≠ 0) (imm8 : Byte) :
    (immValue rot imm8).msb = (imm8.zeroExtend 32).getLsbD (2 * rot.toNat - 1) := by
  have hpos : rot.toNat ≠ 0 := BitVec.toNat_ne_iff_ne.2 hrot
  have hlt := rot.isLt
  have hindex : (31 + 2 * rot.toNat) % 32 = 2 * rot.toNat - 1 := by omega
  rw [BitVec.msb_eq_getLsbD_last, immValue_bit rot imm8 (by decide), hindex]

theorem operand2_imm_carry (rot : BitVec 4) (imm8 : Byte) (sf : Bool) (s : State) :
    (operand2 (.imm rot imm8) sf s).carry = if sf = true ∧ rot ≠ 0 then some (immValue rot imm8).msb else none := by
  simp [operand2, immOperand]

/-! ### The logical shifts, as arithmetic -/

theorem shiftLeft_toNat (m : Word) (n : Nat) : (m <<< n).toNat = m.toNat * 2 ^ n % 2 ^ 32 := by
  rw [BitVec.toNat_shiftLeft, Nat.shiftLeft_eq]

theorem ushiftRight_toNat (m : Word) (n : Nat) : (m >>> n).toNat = m.toNat / 2 ^ n := by
  rw [BitVec.toNat_ushiftRight, Nat.shiftRight_eq_div_pow]

theorem toNat_mul_two_pow_of_ge (m : Word) {a : Nat} (ha : 32 ≤ a) : m.toNat * 2 ^ a % 2 ^ 32 = 0 :=
  Nat.mod_eq_zero_of_dvd (Dvd.dvd.mul_left (Nat.pow_dvd_pow 2 ha) _)

theorem toNat_div_two_pow_of_ge (m : Word) {a : Nat} (ha : 32 ≤ a) : m.toNat / 2 ^ a = 0 :=
  Nat.div_eq_of_lt (m.isLt.trans_le (Nat.pow_le_pow_right (by decide) ha))

/-! ### Shifts by an immediate amount -/

/-- The amount of LSR and ASR by an immediate: 0 stands for 32 (R146, R147). -/
def rightShiftAmount (n : BitVec 5) : Nat := if n = 0 then 32 else n.toNat

theorem operand2_immShift_value (n : BitVec 5) (ty : ShiftType) (rm : RegIdx) (sf : Bool) (s : State) :
    (operand2 (.immShift n ty rm) sf s).value = shiftImm ty n.toNat (regRead rm s) s.cpsr.c := rfl

section
variable (n : BitVec 5) (m : Word) (cin : Bool)

theorem shiftImm_lsl_toNat : (shiftImm .lsl n.toNat m cin).toNat = m.toNat * 2 ^ n.toNat % 2 ^ 32 :=
  shiftLeft_toNat m n.toNat

theorem shiftImm_lsr_toNat : (shiftImm .lsr n.toNat m cin).toNat = m.toNat / 2 ^ rightShiftAmount n := by
  by_cases hn : n = 0
  · subst hn
    exact (toNat_div_two_pow_of_ge m le_rfl).symm
  · have hpos : n.toNat ≠ 0 := BitVec.toNat_ne_iff_ne.2 hn
    rw [shiftImm, if_neg hpos, rightShiftAmount, if_neg hn, ushiftRight_toNat]

theorem shiftImm_asr_toInt : (shiftImm .asr n.toNat m cin).toInt = m.toInt / 2 ^ rightShiftAmount n := by
  by_cases hn : n = 0
  · subst hn
    exact sshiftRight_31_toInt m (by decide)
  · have hpos : n.toNat ≠ 0 := BitVec.toNat_ne_iff_ne.2 hn
    rw [shiftImm, if_neg hpos, rightShiftAmount, if_neg hn, sshiftRight_toInt]

variable {n} in
theorem shiftImm_ror_bit (hn : n ≠ 0) {k : Nat} (hk : k < 32) :
    (shiftImm .ror n.toNat m cin).getLsbD k = m.getLsbD ((k + n.toNat) % 32) := by
  have hpos : n.toNat ≠ 0 := BitVec.toNat_ne_iff_ne.2 hn
  rw [shiftImm, if_neg hpos, ror32_bit m n.isLt hk]

/-- ROR by 0 is RRX (R148, R151). -/
theorem shiftImm_ror_zero_toNat : (shiftImm .ror 0 m cin).toNat = cin.toNat * 2 ^ 31 + m.toNat / 2 := rrx_toNat m cin

end

/-! ### Shifts by a register amount -/

theorem operand2_regShift_value (rs rm : RegIdx) (ty : ShiftType) (sf : Bool) (s : State) :
    (operand2 (.regShift rs ty rm) sf s).value = shiftReg ty ((regRead rs s).toNat % 256) (regRead rm s) := by
  rw [← shiftAmount_eq]
  rfl

section
variable (a : Nat) (m : Word)

theorem shiftReg_lsl_toNat : (shiftReg .lsl a m).toNat = m.toNat * 2 ^ a % 2 ^ 32 := by
  rw [shiftReg, shiftRegWith]
  split
  case isTrue ha => exact (toNat_mul_two_pow_of_ge m ha).symm
  case isFalse => exact shiftLeft_toNat m a

theorem shiftReg_lsr_toNat : (shiftReg .lsr a m).toNat = m.toNat / 2 ^ a := by
  rw [shiftReg, shiftRegWith]
  split
  case isTrue ha => exact (toNat_div_two_pow_of_ge m ha).symm
  case isFalse => exact ushiftRight_toNat m a

/-- The model's cap at 31 is no loss: the sign has filled the word (R154). -/
theorem shiftReg_asr_toInt : (shiftReg .asr a m).toInt = m.toInt / 2 ^ a := by
  rw [shiftReg, shiftRegWith]
  rcases Nat.le_total a 31 with ha | ha
  · rw [Nat.min_eq_left ha, sshiftRight_toInt]
  · rw [Nat.min_eq_right ha, sshiftRight_31_toInt m ha]

variable {a}

/-- The two settings of `ROR_REG_ZERO_QUIRK` differ here only (R155). -/
theorem shiftRegWith_ror_of_mod_eq_zero (ha : a % 32 = 0) (zeroQuirk : Bool) :
    shiftRegWith zeroQuirk .ror a m = if zeroQuirk then 0 else m := if_pos ha

theorem shiftRegWith_ror_bit (ha : a % 32 ≠ 0) (zeroQuirk : Bool) {k : Nat} (hk : k < 32) :
    (shiftRegWith zeroQuirk .ror a m).getLsbD k = m.getLsbD ((k + a) % 32) := by
  rw [shiftRegWith, if_neg ha, ror32_bit m (Nat.mod_lt a (by decide)) hk, Nat.add_mod_mod]

end

/-! ### The result -/

/-- S changes the operand's carry, not the ALU's inputs (R112, R157). -/
theorem dpAlu_flagless (alu : Word → Word → Bool → AluResult) (sf : Bool) (rn : RegIdx) (o : Operand2) (s : State) :
    dpAlu alu sf rn o s = dpAlu alu true rn o s := by
  rw [dpAlu, dpAlu, operand2_value_flagless]

end Sys2Proof.Machine

/-! ### The statements -/

namespace Sys2Proof.Proofs

open Sys2Proof.Machine

/-- Settles O20: the value is a rotation, and its top bit is the carry. -/
theorem immediateOperandValueAndCarry : Obligations.ImmediateOperandValueAndCarry := by
  intro rot imm8 sf s
  refine ⟨fun k hk => immValue_bit rot imm8 hk, ?_⟩
  rw [operand2_imm_carry]
  split
  case isTrue h => rw [immValue_msb h.2]
  case isFalse => rfl

/-- Settles O21, type by type. -/
theorem immediateShiftValue : Obligations.ImmediateShiftValue := by
  intro n rm sf s
  simp only [operand2_immShift_value]
  refine ⟨shiftImm_lsl_toNat .., shiftImm_lsr_toNat .., shiftImm_asr_toInt .., fun hn k hk => shiftImm_ror_bit _ _ hn hk, ?_⟩
  rintro rfl
  exact shiftImm_ror_zero_toNat ..

/-- Settles O22, type by type, for every amount. -/
theorem registerShiftValue : Obligations.RegisterShiftValue := by
  intro rs rm sf s
  simp only [operand2_regShift_value]
  exact ⟨shiftReg_lsl_toNat .., shiftReg_lsr_toNat .., shiftReg_asr_toInt ..⟩

/-- Settles O23: the quirk's two settings where the amount is 0 modulo 32, the rotation elsewhere. -/
theorem rotateByRegisterValue : Obligations.RotateByRegisterValue := by
  intro rs rm sf s
  simp only [operand2_regShift_value]
  exact ⟨fun ha => shiftRegWith_ror_of_mod_eq_zero _ ha true, fun ha k hk => shiftRegWith_ror_bit _ ha true hk,
    fun ha => shiftRegWith_ror_of_mod_eq_zero _ ha false⟩

/-- Settles O32: both variants store the same ALU value, and the flag update touches the status set only. -/
theorem resultDoesNotDependOnS : Obligations.ResultDoesNotDependOnS := by
  intro op c rn rd o s hop hrd hc
  refine ⟨_, _, exec_dp_stored hop hc rn o false hrd, exec_dp_stored hop hc rn o true hrd, ?_, rfl, rfl⟩
  rw [dpAlu_flagless _ false]
  rfl

/-- Settles O24, from the carry of the forms that are not immediate. -/
theorem registerFormsHaveNoCarryOut : Obligations.RegisterFormsHaveNoCarryOut :=
  fun _ _ _ _ sf s => ⟨operand2_carry_of_register (by simp) sf s, operand2_carry_of_register (by simp) sf s⟩

end Sys2Proof.Proofs
end

section
/-! The statements of 43_data_processing.md: the whole next state of each of the sixteen opcodes. The lemmas come first, then the
proofs that settle the statements. -/

namespace Sys2Proof.Machine

open Sys2Proof.Claims

/-! ### The result and the flags of an ALU operation -/

theorem addWithCarry_value_eq_sum (a b : Word) (c : Bool) : (addWithCarry a b c).value = sum a b c :=
  addWithCarry_value ..

theorem subWithCarry_value_eq_difference (a b : Word) (c : Bool) : (subWithCarry a b c).value = difference a b c := by
  rw [subWithCarry_value]
  cases c <;> rfl

/-- An addition writes all four flags, whatever the operand path yields. -/
theorem dpStatus_addWithCarry (shifterC : Option Bool) (a b : Word) (c : Bool) (f : Status) :
    dpStatus shifterC (addWithCarry a b c) f = sumFlags a b c f := by
  simp only [dpStatus, addWithCarry_arith, addWithCarry_value_eq_sum, BitVec.msb_eq_getLsbD_last]
  cases shifterC <;> rfl

/-- A logical opcode writes N and Z, and C where the operand is an immediate with non-zero rotation (R192). -/
theorem dpStatus_logical (r : Word) (o : Operand2) (s : State) :
    dpStatus (operand2 o true s).carry ⟨r, none⟩ s.cpsr = logicalFlags r o s := by
  cases o with
  | imm rot imm8 =>
    rw [operand2_imm_carry]
    by_cases hrot : rot = 0
    · rw [if_neg (fun h => h.2 hrot)]
      simp only [logicalFlags, if_pos hrot, dpStatus, BitVec.msb_eq_getLsbD_last]
      rfl
    · rw [if_pos ⟨rfl, hrot⟩]
      simp only [logicalFlags, if_neg hrot, dpStatus, BitVec.msb_eq_getLsbD_last]
      rfl
  | immShift | regShift =>
    rw [operand2_carry_of_register (by simp), dpStatus, BitVec.msb_eq_getLsbD_last]
    rfl

/-! ### The next state -/

section
variable {op : Opcode} {c : Cond} {sf : Bool} {rn rd : RegIdx} {o : Operand2} {s : State} {v : Word} {f : Status}

/-- A writing opcode whose condition passes leaves the ALU's value and flags where `written` says (R170, R193). -/
theorem exec_dp_written (hop : isTest op = false) (hc : condPass c s.cpsr = true)
    (hv : (dpAlu (aluOf op) sf rn o s).value = v)
    (hf : dpStatus (operand2 o true s).carry (dpAlu (aluOf op) sf rn o s) s.cpsr = f) :
    exec (.dp op c sf rn rd o) s = .next (written sf rd v f s) := by
  subst hv hf
  rcases regIdx_lt_or_pc rd with hi | rfl
  · rw [exec_dp_stored hop hc rn o sf hi, written, dif_pos hi]
    cases sf <;> rfl
  · cases sf
    · exact exec_dp_branch hop hc rn o
    · rw [exec_dp_exceptionReturn hop hc, alignFor_eq_and]
      rfl

theorem exec_dp_logical_written (hop : isTest op = false) (hc : condPass c s.cpsr = true)
    (hr : dpAlu (aluOf op) sf rn o s = ⟨v, none⟩) :
    exec (.dp op c sf rn rd o) s = .next (written sf rd v (logicalFlags v o s) s) :=
  exec_dp_written hop hc (by rw [hr]) (by rw [hr, dpStatus_logical])

theorem exec_dp_sum_written {a b : Word} {cin : Bool} (hop : isTest op = false) (hc : condPass c s.cpsr = true)
    (hr : dpAlu (aluOf op) sf rn o s = addWithCarry a b cin) :
    exec (.dp op c sf rn rd o) s = .next (written sf rd (sum a b cin) (sumFlags a b cin s.cpsr) s) :=
  exec_dp_written hop hc (by rw [hr, addWithCarry_value_eq_sum]) (by rw [hr, dpStatus_addWithCarry])

theorem exec_dp_difference_written {a b : Word} {cin : Bool} (hop : isTest op = false) (hc : condPass c s.cpsr = true)
    (hr : dpAlu (aluOf op) sf rn o s = subWithCarry a b cin) :
    exec (.dp op c sf rn rd o) s = .next (written sf rd (difference a b cin) (differenceFlags a b cin s.cpsr) s) :=
  exec_dp_written hop hc (by rw [hr, subWithCarry_value_eq_difference]) (by rw [hr, dpStatus_subWithCarry])

/-- A test opcode whose condition passes leaves the ALU's flags and advances (R190). -/
theorem exec_dp_flagged (hop : isTest op = true) (hc : condPass c s.cpsr = true)
    (hf : dpStatus (operand2 o true s).carry (dpAlu (aluOf op) true rn o s) s.cpsr = f) :
    exec (.dp op c sf rn rd o) s = .next (flagged f s) := by
  subst hf
  rw [exec_dp_test hop, dataTest, gated_pass hc]
  rfl

/-- With S = 0 and an Rd below 15, the ALU's value in Rd and the advance of the pc are the only changes (R131, R171). -/
theorem exec_dp_only_stores (hop : isTest op = false) (hc : condPass c s.cpsr = true) (hi : rd.val < 15)
    (hv : (dpAlu (aluOf op) false rn o s).value = v) :
    exec (.dp op c false rn rd o) s = .next { s with regs := s.regs.set rd.val v hi, pc := s.pc + 4 } := by
  subst hv
  exact exec_dp_stored hop hc rn o false hi

end

/-! ### Equal register indices -/

section
variable {r : RegIdx} (hr : r.val < 15) (s : State)
include hr

/-- A register that is not shifted (R145). -/
theorem operand2_unshifted (sf : Bool) : (operand2 (.immShift 0 .lsl r) sf s).value = s.regs[r.val] := by
  rw [operand2_immShift_value, regRead_stored hr]
  exact BitVec.shiftLeft_zero _

theorem dpAlu_add_self (sf : Bool) :
    (dpAlu (aluOf .add) sf r (.immShift 0 .lsl r) s).value = s.regs[r.val] + s.regs[r.val] := by
  rw [dpAlu_add_value, regRead_stored hr, operand2_unshifted hr]

theorem dpAlu_sub_self (sf : Bool) : (dpAlu (aluOf .sub) sf r (.immShift 0 .lsl r) s).value = 0 := by
  rw [dpAlu, operand2_unshifted hr, regRead_stored hr]
  exact (subWithCarry_value_eq_difference ..).trans ((difference_true ..).trans (BitVec.sub_self _))

theorem dpAlu_mov_lsl_self (sf : Bool) (rn : RegIdx) :
    (dpAlu (aluOf .mov) sf rn (.regShift r .lsl r) s).value =
      BitVec.ofNat 32 (s.regs[r.val].toNat * 2 ^ (s.regs[r.val].toNat % 256)) := by
  show (operand2 (.regShift r .lsl r) sf s).value = _
  rw [operand2_regShift_value, regRead_stored hr]
  refine BitVec.eq_of_toNat_eq ?_
  rw [shiftReg_lsl_toNat, BitVec.toNat_ofNat]

end

end Sys2Proof.Machine

/-! ### The statements -/

namespace Sys2Proof.Proofs

open Sys2Proof.Machine

/-- Settles O25: the ALU of each yields a word and no carry or overflow. -/
theorem bitwiseOpcodesResult : Obligations.BitwiseOpcodesResult :=
  fun _ _ _ _ _ _ hc => ⟨exec_dp_logical_written rfl hc rfl, exec_dp_logical_written rfl hc rfl,
    exec_dp_logical_written rfl hc rfl, exec_dp_logical_written rfl hc rfl⟩

/-- Settles O26: the ALU yields the second operand or its complement, and no carry or overflow. -/
theorem moveOpcodesResult : Obligations.MoveOpcodesResult :=
  fun _ _ _ _ _ _ hc => ⟨exec_dp_logical_written rfl hc rfl, exec_dp_logical_written rfl hc rfl⟩

/-- Settles O27: the ALU is the adder, with carry in 0 and with C. -/
theorem additionOpcodesResult : Obligations.AdditionOpcodesResult :=
  fun _ _ _ _ _ _ hc => ⟨exec_dp_sum_written rfl hc rfl, exec_dp_sum_written rfl hc rfl⟩

/-- Settles O28: the ALU is the subtractor, the operands in either order, with carry in 1 and with C. -/
theorem subtractionOpcodesResult : Obligations.SubtractionOpcodesResult :=
  fun _ _ _ _ _ _ hc => ⟨exec_dp_difference_written rfl hc rfl, exec_dp_difference_written rfl hc rfl,
    exec_dp_difference_written rfl hc rfl, exec_dp_difference_written rfl hc rfl⟩

/-- Settles O29: the flags of AND and EOR. -/
theorem bitTestOpcodesResult : Obligations.BitTestOpcodesResult :=
  fun _ _ _ _ _ _ hc => ⟨exec_dp_flagged rfl hc (dpStatus_logical ..), exec_dp_flagged rfl hc (dpStatus_logical ..)⟩

/-- Settles O30: the flags of SUB and ADD. -/
theorem compareOpcodesResult : Obligations.CompareOpcodesResult :=
  fun _ _ _ _ _ _ hc => ⟨exec_dp_flagged rfl hc (dpStatus_subWithCarry ..), exec_dp_flagged rfl hc (dpStatus_addWithCarry ..)⟩

/-- Settles O38: the ALU reads the register before it is stored. -/
theorem equalIndicesComputeFromTheOldValue : Obligations.EqualIndicesComputeFromTheOldValue := by
  intro c r hr s hc x
  exact ⟨exec_dp_only_stores rfl hc hr (dpAlu_add_self hr s false), exec_dp_only_stores rfl hc hr (dpAlu_sub_self hr s false),
    exec_dp_only_stores rfl hc hr (dpAlu_mov_lsl_self hr s false 0)⟩

end Sys2Proof.Proofs
end

section
/-! The statements of 44_bx_and_hooks.md: what the hooked instructions and BX do when their condition passes. The lemmas come
first, then the proofs that settle the statements. -/

namespace Sys2Proof.Machine

/-! ### The hook of a decoded word -/

/-- What a word of a hook class decodes to hands over that class and the word, under the word's own condition (R211). -/
theorem exec_decodeWord_hook {w : Word} {k : HookClass} (hk : classify w = .hook k) (s : State) :
    exec (decodeWord w) s = gated (decodeWord w).cond s (hook k w) := by
  rw [decodeWord_cond, decodeWord_hook hk, exec_hookInstr, bodyWord_fields]

/-! ### Branch and exchange -/

/-- Bit 0, which BX tests, is the parity (R210). -/
theorem getLsbD_zero_eq_decide_odd (v : Word) : v.getLsbD 0 = decide (v.toNat % 2 = 1) := Nat.testBit_zero v.toNat

theorem alignHalf_of_odd {v : Word} (hv : v.toNat % 2 = 1) : alignHalf v = v - 1 := by
  have hle : (1 : Word).toNat ≤ v.toNat := by
    show 1 ≤ v.toNat
    omega
  refine BitVec.eq_of_toNat_eq ?_
  rw [alignHalf_toNat, BitVec.toNat_sub_of_le hle]
  show v.toNat / 2 * 2 = v.toNat - 1
  omega

theorem alignWord_eq_ofNat (v : Word) : alignWord v = BitVec.ofNat 32 (v.toNat / 4 * 4) := by
  rw [← alignWord_toNat, BitVec.ofNat_toNat, BitVec.setWidth_eq]

/-- The target of BX: the mask for the T that bit 0 selects, in arithmetic (R210). -/
theorem alignFor_decide_odd (v : Word) : alignFor (decide (v.toNat % 2 = 1)) v =
    if v.toNat % 2 = 1 then v - 1 else BitVec.ofNat 32 (v.toNat / 4 * 4) := by
  by_cases hv : v.toNat % 2 = 1
  · rw [if_pos hv, decide_eq_true hv, ← alignHalf_of_odd hv]
    rfl
  · rw [if_neg hv, decide_eq_false hv, ← alignWord_eq_ofNat]
    rfl

/-- BX whose condition passes writes T and the pc and nothing else (R210). -/
theorem exec_bx {c : Cond} {s : State} (hc : condPass c s.cpsr = true) (rm : RegIdx) :
    exec (.bx c rm) s = .next { s with
      pc := alignFor ((regRead rm s).getLsbD 0) (regRead rm s)
      cpsr := { s.cpsr with t := (regRead rm s).getLsbD 0 } } :=
  gated_pass hc _

end Sys2Proof.Machine

/-! ### The statements -/

namespace Sys2Proof.Proofs

open Sys2Proof.Machine

/-- Settles O15: a well-formed instruction is what its word decodes to (O1), and a decoded word of a hook class is gated and
hands over that class and the word. -/
theorem hookRowsStopWithClassAndWord : Obligations.HookRowsStopWithClassAndWord := by
  intro i k s hi hk hc
  have hdecode : decodeWord (encode i) = i := decodeOfEncodeIsTheInstruction i hi
  have hexec := exec_decodeWord_hook hk s
  rwa [hdecode, gated_pass hc] at hexec

/-- Settles O39: bit 0 is the parity of the register, and the mask it selects is the target in arithmetic. -/
theorem branchExchangeResult : Obligations.BranchExchangeResult := by
  intro c rm s hc v
  rw [exec_bx hc, getLsbD_zero_eq_decide_odd, alignFor_decide_odd]

end Sys2Proof.Proofs
end

section
/-! The statements of 60_exceptions.md: the undefined words, and every step that stops. The lemmas come first, then the proofs
that settle the statements. -/

namespace Sys2Proof.Machine

/-- What a word of class `UNDEFINED` decodes to traps with that word, under the word's own condition (R240). -/
theorem exec_decodeWord_undefined {w : Word} (hu : classify w = .undefined) (s : State) :
    exec (decodeWord w) s = gated (decodeWord w).cond s (undefinedTrap w) := by
  rw [decodeWord_cond, decodeWord_undefined hu, exec_undefinedInstr, bodyWord_fields]

/-! ### Every way a step stops -/

/-- The outcomes of a step: it retires, or stops at an event of rule R241, given here with what raises it. -/
inductive StepOutcome (s : State) : Result → Prop where
  | next (t : State) : StepOutcome s (.next t)
  | undefined (harm : s.cpsr.t = false) (hc : condPass (.ofBits (condBits (fetch s))) s.cpsr = true)
      (hu : classify (fetch s) = .undefined) : StepOutcome s (.fault (.undefined (fetch s)))
  | hook (harm : s.cpsr.t = false) (hc : condPass (.ofBits (condBits (fetch s))) s.cpsr = true) (k : HookClass)
      (hk : classify (fetch s) = .hook k) : StepOutcome s (.refused (.hook k (fetch s)))
  | thumbState (ht : s.cpsr.t = true) : StepOutcome s (.refused .thumbState)

/-- The inversion of a step, by its mode, its condition and the class of its word. -/
theorem step_outcome (s : State) : StepOutcome s (step s) := by
  cases harm : s.cpsr.t with
  | true => exact step_of_thumb harm ▸ .thumbState harm
  | false =>
    cases hc : condPass (.ofBits (condBits (fetch s))) s.cpsr with
    | false => exact step_of_failing harm hc ▸ .next _
    | true =>
      rcases class_cases (fetch s) with hd | hb | ⟨k, hk⟩ | hu
      · obtain ⟨t, ht⟩ := step_of_dp_or_bx harm (.inl hd)
        exact ht ▸ .next t
      · obtain ⟨t, ht⟩ := step_of_dp_or_bx harm (.inr hb)
        exact ht ▸ .next t
      · exact step_of_hook harm hc hk ▸ .hook harm hc k hk
      · exact step_of_undefined harm hc hu ▸ .undefined harm hc hu

theorem step_eq_fault_iff {s : State} {f : Fault} : step s = .fault f ↔
    s.cpsr.t = false ∧ condPass (.ofBits (condBits (fetch s))) s.cpsr = true ∧ classify (fetch s) = .undefined ∧
      f = .undefined (fetch s) := by
  constructor
  · intro h
    cases h ▸ step_outcome s with
    | undefined harm hc hu => exact ⟨harm, hc, hu, rfl⟩
  · rintro ⟨harm, hc, hu, rfl⟩
    exact step_of_undefined harm hc hu

theorem step_eq_refused_iff {s : State} {r : Refusal} : step s = .refused r ↔
    (s.cpsr.t = true ∧ r = .thumbState) ∨
    (s.cpsr.t = false ∧ condPass (.ofBits (condBits (fetch s))) s.cpsr = true ∧
      ∃ k, classify (fetch s) = .hook k ∧ r = .hook k (fetch s)) := by
  constructor
  · intro h
    cases h ▸ step_outcome s with
    | thumbState ht => exact .inl ⟨ht, rfl⟩
    | hook harm hc k hk => exact .inr ⟨harm, hc, k, hk, rfl⟩
  · rintro (⟨ht, rfl⟩ | ⟨harm, hc, k, hk, rfl⟩)
    · exact step_of_thumb ht
    · exact step_of_hook harm hc hk

end Sys2Proof.Machine

/-! ### The statements -/

namespace Sys2Proof.Proofs

open Sys2Proof.Machine

/-- Settles O16: a well-formed instruction is what its word decodes to (O1), and a decoded word of class `UNDEFINED` is gated
and traps with that word. -/
theorem undefinedRowsStopWithTheWord : Obligations.UndefinedRowsStopWithTheWord := by
  intro i s hi hu hc
  have hdecode : decodeWord (encode i) = i := decodeOfEncodeIsTheInstruction i hi
  have hexec := exec_decodeWord_undefined hu s
  rwa [hdecode, gated_pass hc] at hexec

/-- Settles O45, from the inversion of a step: one outcome faults, two are refusals, and each carries what raises it. -/
theorem stopsAreExactlyTheListedEvents : Obligations.StopsAreExactlyTheListedEvents :=
  fun _ => ⟨fun _ => step_eq_fault_iff, fun _ => step_eq_refused_iff⟩

end Sys2Proof.Proofs
end

section
/-! The statements of 70_reset_and_hazards.md: the end of a run. The lemmas come first, then the proofs that settle the
statements. -/

namespace Sys2Proof.Machine

open Sys2Proof.Claims

/-! ### The states before the stop address -/

section
variable {stop : Word} {n : Nat} {s t : State}

theorem notYetAt_zero : NotYetAt stop 0 s := nofun

/-- From the front: the first step begins elsewhere, and so do the steps from the state it leaves. -/
theorem notYetAt_succ_of_next (h : step s = .next t) : NotYetAt stop (n + 1) s ↔ s.pc ≠ stop ∧ NotYetAt stop n t := by
  constructor
  · intro hclear
    obtain ⟨u, hu, hpc⟩ := hclear 0 n.succ_pos
    cases hu
    refine ⟨hpc, fun j hj => ?_⟩
    exact runSteps_of_next h j ▸ hclear (j + 1) (Nat.succ_lt_succ hj)
  · rintro ⟨hpc, hclear⟩ (_ | j) hj
    · exact ⟨s, rfl, hpc⟩
    · exact runSteps_of_next h j ▸ hclear j (Nat.lt_of_succ_lt_succ hj)

/-- From the back: the earlier steps begin elsewhere, and so does the one in the state they lead to. -/
theorem notYetAt_succ_of_runSteps (h : runSteps n s = .next t) :
    NotYetAt stop (n + 1) s ↔ NotYetAt stop n s ∧ t.pc ≠ stop := by
  unfold NotYetAt
  rw [Nat.forall_lt_succ_right]
  simp [h]

end

/-! ### Every way a run ends -/

/-- A run of at most `m` steps from `t` is over before a step retires (R268). -/
inductive EndsAtOnce (stop : Word) : Nat → State → RunEnd → Prop where
  | stopAddress {m : Nat} {t : State} (hpc : t.pc = stop) : EndsAtOnce stop m t (.stopAddress t)
  | fault {m : Nat} {t : State} {f : Fault} (hpc : t.pc ≠ stop) (hstep : step t = .fault f) :
      EndsAtOnce stop (m + 1) t (.fault f t)
  | refusal {m : Nat} {t : State} {r : Refusal} (hpc : t.pc ≠ stop) (hstep : step t = .refused r) :
      EndsAtOnce stop (m + 1) t (.refusal r t)
  | stillRunning {t : State} (hpc : t.pc ≠ stop) : EndsAtOnce stop 0 t (.stillRunning t)

/-- The run from `s` leads to `t` by `n` retired steps, none of which began at the stop address. -/
def ReachesBeforeStop (stop : Word) (n : Nat) (s t : State) : Prop := runSteps n s = .next t ∧ NotYetAt stop n s

section
variable {stop : Word} {n m : Nat} {s t u : State} {e : RunEnd}

theorem ReachesBeforeStop.refl : ReachesBeforeStop stop 0 s s := ⟨rfl, notYetAt_zero⟩

theorem reachesBeforeStop_succ : ReachesBeforeStop stop (n + 1) s t ↔
    s.pc ≠ stop ∧ ∃ u, step s = .next u ∧ ReachesBeforeStop stop n u t := by
  constructor
  · rintro ⟨hrun, hclear⟩
    obtain ⟨u, hu, hrun⟩ := runSteps_succ_next.1 hrun
    obtain ⟨hpc, hclear⟩ := (notYetAt_succ_of_next hu).1 hclear
    exact ⟨hpc, u, hu, hrun, hclear⟩
  · rintro ⟨hpc, u, hu, hrun, hclear⟩
    exact ⟨runSteps_succ_next.2 ⟨u, hu, hrun⟩, (notYetAt_succ_of_next hu).2 ⟨hpc, hclear⟩⟩

/-- A run goes on from a state reached before the stop address, with the steps left. -/
theorem runUntil_of_reachesBeforeStop (h : ReachesBeforeStop stop n s t) :
    runUntil stop (n + m) s = runUntil stop m t := by
  induction n generalizing s with
  | zero =>
    obtain ⟨hrun, -⟩ := h
    cases hrun
    rw [Nat.zero_add]
  | succ n ih =>
    obtain ⟨hpc, u, hu, h⟩ := reachesBeforeStop_succ.1 h
    rw [Nat.succ_add, runUntil_of_next hpc hu, ih h]

theorem runUntil_of_endsAtOnce (h : EndsAtOnce stop m t e) : runUntil stop m t = e := by
  cases h with
  | stopAddress hpc => exact runUntil_at_stop hpc m
  | fault hpc hstep => simp only [runUntil, if_neg hpc, hstep]
  | refusal hpc hstep => simp only [runUntil, if_neg hpc, hstep]
  | stillRunning hpc => simp only [runUntil, if_neg hpc]

/-- From every state, retired steps that begin before the stop address lead to an end within `k` steps. -/
theorem exists_end (stop : Word) (k : Nat) (s : State) :
    ∃ e n m t, n + m = k ∧ ReachesBeforeStop stop n s t ∧ EndsAtOnce stop m t e := by
  induction k generalizing s with
  | zero =>
    by_cases hpc : s.pc = stop
    · exact ⟨_, 0, 0, s, rfl, .refl, .stopAddress hpc⟩
    · exact ⟨_, 0, 0, s, rfl, .refl, .stillRunning hpc⟩
  | succ k ih =>
    by_cases hpc : s.pc = stop
    · exact ⟨_, 0, k + 1, s, Nat.zero_add _, .refl, .stopAddress hpc⟩
    cases hstep : step s with
    | fault f => exact ⟨_, 0, k + 1, s, Nat.zero_add _, .refl, .fault hpc hstep⟩
    | refused r => exact ⟨_, 0, k + 1, s, Nat.zero_add _, .refl, .refusal hpc hstep⟩
    | next u =>
      obtain ⟨e, n, m, t, rfl, hreach, hend⟩ := ih u
      exact ⟨e, n + 1, m, t, Nat.succ_add n m, reachesBeforeStop_succ.2 ⟨hpc, u, hstep, hreach⟩, hend⟩

/-- A run's end is the one that retired steps before the stop address lead to (R268). -/
theorem runUntil_eq_iff {k : Nat} : runUntil stop k s = e ↔
    ∃ n m t, n + m = k ∧ ReachesBeforeStop stop n s t ∧ EndsAtOnce stop m t e := by
  have sound {e n m t} (hreach : ReachesBeforeStop stop n s t) (hend : EndsAtOnce stop m t e) :
      runUntil stop (n + m) s = e :=
    (runUntil_of_reachesBeforeStop hreach).trans (runUntil_of_endsAtOnce hend)
  constructor
  · rintro rfl
    obtain ⟨e, n, m, t, rfl, hreach, hend⟩ := exists_end stop k s
    exact ⟨n, m, t, rfl, hreach, (sound hreach hend).symm ▸ hend⟩
  · rintro ⟨n, m, t, rfl, hreach, hend⟩
    exact sound hreach hend

/-! ### What each end says of the state it is in -/

theorem endsAtOnce_stopAddress_iff : EndsAtOnce stop m u (.stopAddress t) ↔ u = t ∧ t.pc = stop := by
  constructor
  · rintro ⟨hpc⟩
    exact ⟨rfl, hpc⟩
  · rintro ⟨rfl, hpc⟩
    exact .stopAddress hpc

theorem endsAtOnce_fault_iff {f : Fault} :
    EndsAtOnce stop m u (.fault f t) ↔ 0 < m ∧ u = t ∧ t.pc ≠ stop ∧ step t = .fault f := by
  constructor
  · intro h
    cases h with
    | fault hpc hstep => exact ⟨Nat.succ_pos _, rfl, hpc, hstep⟩
  · rintro ⟨hm, rfl, hpc, hstep⟩
    obtain ⟨m, rfl⟩ := Nat.exists_eq_succ_of_ne_zero hm.ne'
    exact .fault hpc hstep

theorem endsAtOnce_refusal_iff {r : Refusal} :
    EndsAtOnce stop m u (.refusal r t) ↔ 0 < m ∧ u = t ∧ t.pc ≠ stop ∧ step t = .refused r := by
  constructor
  · intro h
    cases h with
    | refusal hpc hstep => exact ⟨Nat.succ_pos _, rfl, hpc, hstep⟩
  · rintro ⟨hm, rfl, hpc, hstep⟩
    obtain ⟨m, rfl⟩ := Nat.exists_eq_succ_of_ne_zero hm.ne'
    exact .refusal hpc hstep

/-- An end that is the outcome `r` of a step in `t` is reached exactly when fewer than `k` retired steps lead to `t`, neither they
nor that step begin at the stop address, and the step has that outcome. -/
theorem runUntil_eq_iff_of_step {k : Nat} {r : Result}
    (he : ∀ m u, EndsAtOnce stop m u e ↔ 0 < m ∧ u = t ∧ t.pc ≠ stop ∧ step t = r) :
    runUntil stop k s = e ↔ ∃ n < k, runSteps n s = .next t ∧ NotYetAt stop (n + 1) s ∧ step t = r := by
  constructor
  · intro h
    obtain ⟨n, m, u, rfl, ⟨hrun, hclear⟩, hend⟩ := runUntil_eq_iff.1 h
    obtain ⟨hm, rfl, hpc, hstep⟩ := (he m u).1 hend
    exact ⟨n, Nat.lt_add_of_pos_right hm, hrun, (notYetAt_succ_of_runSteps hrun).2 ⟨hclear, hpc⟩, hstep⟩
  · rintro ⟨n, hn, hrun, hclear, hstep⟩
    obtain ⟨hclear, hpc⟩ := (notYetAt_succ_of_runSteps hrun).1 hclear
    exact runUntil_eq_iff.2 ⟨n, k - n, t, Nat.add_sub_of_le hn.le, ⟨hrun, hclear⟩,
      (he _ t).2 ⟨Nat.sub_pos_of_lt hn, rfl, hpc, hstep⟩⟩

end

end Sys2Proof.Machine

/-! ### The statements -/

namespace Sys2Proof.Proofs

open Sys2Proof.Machine

/-- Settles O51: a run is retired steps before the stop address and then an end, and the end is the stop address exactly in a
state whose pc is there. -/
theorem runEndsAtTheFirstStopAddress : Obligations.RunEndsAtTheFirstStopAddress := by
  intro stop k s t
  constructor
  · intro h
    obtain ⟨n, m, u, rfl, ⟨hrun, hclear⟩, hend⟩ := runUntil_eq_iff.1 h
    obtain ⟨rfl, hpc⟩ := endsAtOnce_stopAddress_iff.1 hend
    exact ⟨hpc, n, Nat.le_add_right n m, hrun, hclear⟩
  · rintro ⟨hpc, n, hn, hrun, hclear⟩
    exact runUntil_eq_iff.2 ⟨n, k - n, t, Nat.add_sub_of_le hn, ⟨hrun, hclear⟩, endsAtOnce_stopAddress_iff.2 ⟨rfl, hpc⟩⟩

/-- Settles O52: faults and refusals are the two ends that are the outcome of a step, and one argument serves both. -/
theorem runEndsAtTheFirstStepThatDoesNotRetire : Obligations.RunEndsAtTheFirstStepThatDoesNotRetire :=
  fun _ _ _ _ =>
    ⟨fun _ => runUntil_eq_iff_of_step fun _ _ => endsAtOnce_fault_iff,
      fun _ => runUntil_eq_iff_of_step fun _ _ => endsAtOnce_refusal_iff⟩

end Sys2Proof.Proofs
end
